-- ==== Sys2Proof/Word.lean ====
section
/-! DEFINITION. The bit-vector types of AmyBin CORE (00_scope.md R5, R8). -/

namespace Sys2Proof

/-- A byte: 8 bits, bit 0 the least significant (R5). -/
abbrev Byte := BitVec 8

/-- The width of registers, `imm`, `pc`, addresses and ALU results (R8). -/
abbrev Word := BitVec 32

/-- The 40-bit instruction `I` of the format `OP5` (R8, R51). -/
abbrev InstrWord := BitVec 40

end Sys2Proof
end

