-- ==== Sys2Proof/Config.lean ====
section
/-! DEFINITION. What an implementation fixes and the spec leaves open (00_scope.md R4): the parameters `NAN_GEN`,
`FLOAT_FORMAT` and `TRACE`, as constants with no body, so that no proof can rest on a particular choice. The parameters
`N` and `MEM0` stand in the memory of State (notes/assumptions/1.md, 2.md); `OPC` is fixed by the spec to the table of R55
(Decode.lean). -/

namespace Sys2Proof

/-- The operation `NAN_GEN` is asked about: the `add`, `sub`, `mul`, `div` of R103 to R106. -/
inductive FloatOp where
  | add | sub | mul | div
deriving DecidableEq, Repr

/-- FREE VALUE behind `NAN_GEN(op, x[A], x[B])` (R4, R102, R107, decision D11; notes/assumptions/3.md): any function at
all. `Machine.nanGen` makes a NaN pattern of it, as R102 requires. -/
opaque Config.nanBits : FloatOp → Word → Word → Word

/-- FREE VALUE `FLOAT_FORMAT` (R4, R136, decision D17; notes/assumptions/4.md): the characters that render a float
output event as text. -/
opaque Config.floatFormat : Word → List Byte

/-- The platform's trace/debug toggle `TRACE` (R4). No rule of the spec reads it and it has no architectural effect
(R163, decision D26), so nothing in the model reads it. -/
opaque Config.trace : Bool

end Sys2Proof
end

