-- ==== Sys2Proof/Machine/State.lean ====
section
/-! DEFINITION. The architectural state of AmyBin CORE (10_state.md): the tuple
`( x[A], x[B], x[R], pc, GT, LT, EQ, NE, STATE, FAULT_CAUSE, FAULT_INFO, MEM[0..N-1], OUT )` and nothing else (R23);
the state after reset (R24); and the reasons for which there is no step. -/

namespace Sys2Proof.Machine

/-- The three general registers: accumulator `A`, operand register `B`, address register `R` (R10). -/
inductive Reg where
  | a | b | r
deriving DecidableEq, Repr

/-- The four condition flags, one bit each (R16). -/
structure Flags where
  gt : Bool
  lt : Bool
  eq : Bool
  ne : Bool
deriving DecidableEq, Repr

/-- The execution state `STATE` (R19). -/
inductive RunState where
  | running | halted | faulted
deriving DecidableEq, Repr

/-- An output event `(kind, v)`: 32 bits for `Int` and `Float`, 8 bits for `Char` (R130). -/
inductive Event where
  | int (v : Word)
  | char (b : Byte)
  | float (v : Word)
deriving DecidableEq, Repr

/-- What `raise` records: the fault classes of R151 with their sub-causes. The CORE takes these faults by a NEXT state
whose STATE is `Faulted` (R154); they are no outcome of a step. -/
inductive CoreFault where
  /-- `InvalidOpcode(opc)`: the decoder reads a byte matching no known instruction. -/
  | invalidOpcode (opc : Byte)
  /-- `MemoryFault(addr)`: an access that starts at `addr` does not lie inside `[0, N)`. -/
  | memoryFault (addr : Word)
  /-- `ArithmeticFault(DivisionByZero)`: `divint` or `modint` with a zero divisor. -/
  | divisionByZero
  /-- `ArithmeticFault(DivideOverflow)`: `divint` or `modint` of `INT32_MIN` by `-1`. -/
  | divideOverflow
deriving DecidableEq, Repr

/-- The memory `MEM` (R21, R30): its size `N`, `0 <= N <= 2^32 - 1` (R4, decision D6), and its contents as
(address, byte) pairs in one canonical form (`Memory.wf` of Machine/Ops.lean). -/
structure Memory where
  size  : Fin (2 ^ 32)
  cells : List Host.Cell
deriving DecidableEq, Repr

/-- What an address that `cells` does not list reads as. DESIGN CHOICE (notes/assumptions/2.md): `MEM0` is a parameter of
the spec (R172), and every `MEM0` is written as a list over this byte. -/
def Memory.unlistedByte : Byte := 0x00#8

/-- The whole state (10_state.md). -/
structure State where
  /-- `x[A]`, the accumulator (R10). -/
  a : Word
  /-- `x[B]`, the operand register (R10). -/
  b : Word
  /-- `x[R]`, the address register (R10). -/
  r : Word
  /-- The program counter (R13). -/
  pc : Word
  /-- `GT`, `LT`, `EQ`, `NE` (R16). -/
  flags : Flags
  /-- `STATE` (R19). -/
  status : RunState
  /-- `FAULT_CAUSE`, 2 bits (R20). -/
  faultCause : BitVec 2
  /-- `FAULT_INFO`, 32 bits (R20). -/
  faultInfo : Word
  /-- `MEM` (R21). -/
  mem : Memory
  /-- `OUT`, oldest event first (R22). -/
  out : List Event
deriving DecidableEq, Repr

/-- Why there is no step. The spec's own faults are not here: they are states (`State.status`, R154). -/
inductive Fault where
  /-- Raised by `step` when STATE is `Halted`: no step exists (R143). Safe: the spec gives none. -/
  | halted
  /-- Raised by `step` when STATE is `Faulted`: no step exists (R143). Safe: the spec gives none. -/
  | faulted
deriving DecidableEq, Repr

/-- Why the model gives no meaning. -/
inductive Refusal where
  /-- Raised by an arm of `exec` whose instruction has no meaning yet. Safe. No arm raises it now. -/
  | notModelled (mnemonic : String)
deriving DecidableEq, Repr

/-- The machine right after reset (R24, R170). The memory is the platform's: nothing is listed, and its size is the
largest the spec allows (DESIGN CHOICE, notes/assumptions/1.md, 2.md). -/
def State.reset : State where
  a := 0x00000000#32
  b := 0x00000000#32
  r := 0x00000000#32
  pc := 0x00000000#32
  flags := { gt := false, lt := false, eq := false, ne := false }
  status := .running
  faultCause := 0#2
  faultInfo := 0x00000000#32
  mem := { size := ⟨2 ^ 32 - 1, by decide⟩, cells := [] }
  out := []

end Sys2Proof.Machine
end

