-- ==== Sys2Proof/Machine/Operands.lean ====
section
/-! DEFINITION. How instructions read 32-bit values: the interpretations `uint`, `sint`, `int32` and the extensions (R6, R7),
the registers (R10), and the two addressing modes (R31). -/

namespace Sys2Proof.Machine

/-- `uint(v)`: the unsigned integer, used for addresses (R6). -/
def uint (v : Word) : Nat := v.toNat

/-- `sint(v)`: the signed integer, two's complement (R6, decision D7). -/
def sint (v : Word) : Int := if v.getLsbD 31 then (v.toNat : Int) - 2 ^ 32 else (v.toNat : Int)

/-- `int32(z)`: the 32-bit vector whose `uint` is `z mod 2^32` (R6). -/
def int32 (z : Int) : Word := BitVec.ofNat 32 (z % 2 ^ 32).toNat

/-- `INT32_MIN` (R6). -/
def int32Min : Int := -2147483648

/-- `INT32_MAX` (R6). -/
def int32Max : Int := 2147483647

/-- `zext_n(v)` (R7): used only where a fault record holds an opcode byte (R151). -/
def zext {w : Nat} (n : Nat) (v : BitVec w) : BitVec n := v.setWidth n

/-- `sext_n(v)` (R7): defined for completeness; no instruction uses it. -/
def sext {w : Nat} (n : Nat) (v : BitVec w) : BitVec n := v.signExtend n

/-- Read of a register (R7, R10). -/
def State.getReg (s : State) : Reg → Word
  | .a => s.a
  | .b => s.b
  | .r => s.r

/-- Write of a register (R7, R10). No register is hardwired to a value. -/
def State.setReg (s : State) (d : Reg) (v : Word) : State :=
  match d with
  | .a => { s with a := v }
  | .b => { s with b := v }
  | .r => { s with r := v }

/-- The number of a register in a debug view (R10, decision D27). No instruction encodes it. -/
def Reg.number : Reg → Nat
  | .a => 0
  | .b => 1
  | .r => 2

/-- The two addressing modes (R31). -/
inductive AddrMode where
  /-- `addr = imm` -/
  | direct (imm : Word)
  /-- `addr = x[R]` -/
  | indirect
deriving DecidableEq, Repr

/-- The effective address: the operand field, or the content of `R` (R31). No offset, scaling or modification of `R`. -/
def State.effAddr (s : State) : AddrMode → Word
  | .direct imm => imm
  | .indirect => s.r

end Sys2Proof.Machine
end

