-- ==== Sys2Proof/Machine/Float.lean ====
section
/-! DEFINITION. The IEEE-754 binary32 format, rounding, and the four operations (43_arith_float.md R100 to R108).
Every finite binary32 number is a whole multiple of `2^-149`, so a magnitude is held exactly, as a natural number of
UNITS of `2^-149`; sums, products and quotients are exact integers or ratios before they are rounded once. -/

namespace Sys2Proof.Machine

/-- A binary32 datum that is not a NaN: an infinity, or a finite number `± units * 2^-149`. `+0` and `-0` are two data,
with `units = 0` (R100). -/
inductive FloatNumber where
  | infinity (neg : Bool)
  | finite (neg : Bool) (units : Nat)
deriving DecidableEq, Repr

/-- The sign `s = v[31]` (R100). -/
def floatSign (v : Word) : Bool := v.getLsbD 31

/-- The biased exponent `e = v[30:23]` (R100). -/
def floatExp (v : Word) : Nat := (v.extractLsb' 23 8).toNat

/-- The fraction `f = v[22:0]` (R100). -/
def floatFrac (v : Word) : Nat := (v.extractLsb' 0 23).toNat

/-- The pattern is a NaN: `e = 255`, `f != 0`, quiet or signalling (R100). -/
def isNaN (v : Word) : Bool := floatExp v == 255 && floatFrac v != 0

/-- `fval(v)` (R6, R100); `none` is NaN. In units of `2^-149` a subnormal `f * 2^-149` is `f` and a normal
`(2^23 + f) * 2^(e-150)` is `(2^23 + f) * 2^(e-1)`. -/
def fval (v : Word) : Option FloatNumber :=
  if isNaN v then none
  else if floatExp v = 255 then some (.infinity (floatSign v))
  else if floatExp v = 0 then some (.finite (floatSign v) (floatFrac v))
  else some (.finite (floatSign v) ((2 ^ 23 + floatFrac v) * 2 ^ (floatExp v - 1)))

/-- A sign bit above a 31-bit magnitude field. -/
def withSign (neg : Bool) (magnitude : Nat) : Word := BitVec.ofBool neg ++ BitVec.ofNat 31 magnitude

/-- `{sg, 0xFF, 23 zero bits}`: the infinity of the sign (R105, R106). -/
def infinityBits (neg : Bool) : Word := withSign neg (255 * 2 ^ 23)

/-- `{sg, 31 zero bits}`: the zero of the sign (R105, R106). -/
def zeroBits (neg : Bool) : Word := withSign neg 0

/-- How far the leading bit of a magnitude lies above bit 23: the power of two that the 24-bit significand is scaled by. -/
def significandShift (units : Nat) : Nat := units.log2 - 23

/-- `fbits(d)`: the pattern whose `fval` is `d` (R6, R100). Below `2^24` units the pattern is the number of units itself
(exponent field 0 or 1); above, the exponent field is one more than the shift of the significand. -/
def fbits : FloatNumber → Word
  | .infinity neg => infinityBits neg
  | .finite neg units =>
    withSign neg (significandShift units * 2 ^ 23 + units / 2 ^ significandShift units)

/-- `n / d` rounded to the nearest integer, ties to even. -/
def divNearestEven (n d : Nat) : Nat :=
  let q := n / d
  let r := n % d
  if 2 * r < d then q
  else if d < 2 * r then q + 1
  else q + q % 2

/-- The overflow threshold `2^128 - 2^103 = (2^25 - 1) * 2^103` in units of `2^-149` (R101). -/
def overflowUnits : Nat := (2 ^ 25 - 1) * 2 ^ 252

/-- `round(z)` for `z = ± (n / d)` units: the nearest binary32 datum, ties to the even fraction, gradual underflow, and
the infinity at and above `2^128 - 2^103` (R101). -/
def round (neg : Bool) (n d : Nat) : FloatNumber :=
  if overflowUnits * d ≤ n then .infinity neg
  else
    let scale := 2 ^ significandShift (n / d)
    .finite neg (divNearestEven n (d * scale) * scale)

/-- The default of `NAN_GEN` (R4, R102). -/
def defaultNaN : Word := 0x7FC00000#32

/-- `NAN_GEN(op, abits, bbits)`: the free pattern of the configuration where that is a NaN, and the spec's default
otherwise, so that it is always a NaN (R102) and may be any function whose values are NaNs (notes/assumptions/3.md). -/
def nanGen (op : FloatOp) (x y : Word) : Word :=
  if isNaN (Config.nanBits op x y) then Config.nanBits op x y else defaultNaN

/-- A signed number of units. -/
def signedUnits (neg : Bool) (units : Nat) : Int := if neg then -(units : Int) else (units : Int)

/-- The rounded exact sum `z` of two finite numbers; `z = 0` gives `-0` when `negZero`, else `+0` (R103, R104). -/
def roundedSum (z : Int) (negZero : Bool) : Word :=
  if z = 0 then fbits (.finite negZero 0) else fbits (round (decide (z < 0)) z.natAbs 1)

/-- `addfloat` (R103). -/
def addFloat (x y : Word) : Word :=
  match fval x, fval y with
  | none, _ => nanGen .add x y
  | some _, none => nanGen .add x y
  | some (.infinity s), some (.infinity t) => if s = t then x else nanGen .add x y
  | some (.infinity _), some (.finite _ _) => x
  | some (.finite _ _), some (.infinity _) => y
  | some (.finite s m), some (.finite t n) =>
    roundedSum (signedUnits s m + signedUnits t n) (s && m == 0 && t && n == 0)

/-- `subfloat`: `A` minus `B` (R104). -/
def subFloat (x y : Word) : Word :=
  match fval x, fval y with
  | none, _ => nanGen .sub x y
  | some _, none => nanGen .sub x y
  | some (.infinity s), some (.infinity t) => if s = t then nanGen .sub x y else x
  | some (.infinity _), some (.finite _ _) => x
  | some (.finite _ _), some (.infinity _) => y ^^^ 0x80000000#32
  | some (.finite s m), some (.finite t n) =>
    roundedSum (signedUnits s m - signedUnits t n) (s && m == 0 && !t && n == 0)

/-- `multfloat` (R105). The exact product of `m` and `n` units is `m * n / 2^149` units. -/
def mulFloat (x y : Word) : Word :=
  let sg := floatSign x ^^ floatSign y
  match fval x, fval y with
  | none, _ => nanGen .mul x y
  | some _, none => nanGen .mul x y
  | some (.infinity _), some (.infinity _) => infinityBits sg
  | some (.infinity _), some (.finite _ n) => if n = 0 then nanGen .mul x y else infinityBits sg
  | some (.finite _ m), some (.infinity _) => if m = 0 then nanGen .mul x y else infinityBits sg
  | some (.finite _ m), some (.finite _ n) =>
    if m = 0 ∨ n = 0 then zeroBits sg else fbits (round sg (m * n) (2 ^ 149))

/-- `divfloat`: `A` over `B`; a zero divisor gives an infinity or a NaN and no fault (R106). The exact quotient of `m` and
`n` units is `m * 2^149 / n` units. -/
def divFloat (x y : Word) : Word :=
  let sg := floatSign x ^^ floatSign y
  match fval x, fval y with
  | none, _ => nanGen .div x y
  | some _, none => nanGen .div x y
  | some (.infinity _), some (.infinity _) => nanGen .div x y
  | some (.infinity _), some (.finite _ _) => infinityBits sg
  | some (.finite _ _), some (.infinity _) => zeroBits sg
  | some (.finite _ m), some (.finite _ n) =>
    if n = 0 then (if m = 0 then nanGen .div x y else infinityBits sg)
    else if m = 0 then zeroBits sg
    else fbits (round sg (m * 2 ^ 149) n)

end Sys2Proof.Machine
end

