-- ==== Sys2Proof/Machine/Flags.lean ====
section
/-! DEFINITION. The condition-flag comparator (44_compare.md) and what the conditional jumps read (45_jump.md). -/

namespace Sys2Proof.Machine

/-- The relation of `A` to `B` that a compare finds: the first column of the outcome table (R113). -/
inductive Relation where
  | greater | less | equal | unordered
deriving DecidableEq, Repr

/-- The relation of two integers. -/
def compareIntegers (x y : Int) : Relation :=
  if y < x then .greater else if x < y then .less else .equal

/-- `cmpint`: signed 32-bit order of the exact integers, never a wrapped difference (R110, R111, conflict C1). -/
def compareInt (x y : Word) : Relation := compareIntegers (sint x) (sint y)

/-- The order of the extended reals: `-inf` below every finite number, `+inf` above, `-0 = +0` (R112). -/
def compareNumbers : FloatNumber → FloatNumber → Relation
  | .infinity s, .infinity t => if s = t then .equal else if s then .less else .greater
  | .infinity s, .finite _ _ => if s then .less else .greater
  | .finite _ _, .infinity t => if t then .greater else .less
  | .finite s m, .finite t n => compareIntegers (signedUnits s m) (signedUnits t n)

/-- `cmpfloat`: IEEE-754 order, a NaN on either side is unordered (R112, decision D12). -/
def compareFloat (x y : Word) : Relation :=
  match fval x, fval y with
  | some p, some q => compareNumbers p q
  | none, _ => .unordered
  | some _, none => .unordered

/-- The flags a compare writes, all four (R110, R111, R112, R113). -/
def flagsOf : Relation → Flags
  | .greater => { gt := true, lt := false, eq := false, ne := true }
  | .less => { gt := false, lt := true, eq := false, ne := true }
  | .equal => { gt := false, lt := false, eq := true, ne := false }
  | .unordered => { gt := false, lt := false, eq := false, ne := true }

/-- The 4-bit register `FLAGS`: `FLAGS[0] = GT`, `[1] = LT`, `[2] = EQ`, `[3] = NE` (R16, decision D14). Only a debug view
reads it. -/
def Flags.bits (f : Flags) : BitVec 4 :=
  BitVec.ofBool f.ne ++ BitVec.ofBool f.eq ++ BitVec.ofBool f.lt ++ BitVec.ofBool f.gt

end Sys2Proof.Machine
end

