-- ==== Sys2Proof/Syntax.lean ====
section
/-! DEFINITION. The AmyBin A/B/R instruction set: one constructor per row of the opcode map (30_encoding.md R55).
Every constructor carries the 32-bit operand field `imm` (R51), also where the instruction does not use it (class `N`, R53),
so that no bit of an instruction word is lost by decoding (R57). -/

namespace Sys2Proof

/-- How an opcode uses the operand field: the four operand classes `I`, `M`, `T`, `N` (R52). -/
inductive OperandClass where
  /-- `I`: the 32 bits are the value. -/
  | immediate
  /-- `M`: the absolute byte address of a 4-byte datum. -/
  | memory
  /-- `T`: the absolute byte address of the next instruction. -/
  | target
  /-- `N`: the operand field is ignored. -/
  | unused
deriving DecidableEq, Repr

/-- The 37 instructions (R55), in the order of the opcode map. -/
inductive Instr where
  /-- `loadai`: 40_load.md R70, class `I` (literal). -/
  | loadai (v : Word)
  /-- `loadbi`: 40_load.md R71, class `I` (literal). -/
  | loadbi (v : Word)
  /-- `loadri`: 40_load.md R72, class `I` (literal). -/
  | loadri (v : Word)
  /-- `loadam`: 40_load.md R73, class `M` (address). -/
  | loadam (a : Word)
  /-- `loadbm`: 40_load.md R74, class `M` (address). -/
  | loadbm (a : Word)
  /-- `loadrm`: 40_load.md R75, class `M` (address). -/
  | loadrm (a : Word)
  /-- `loadar`: 40_load.md R76, class `N` (ignored operand). -/
  | loadar (imm : Word)
  /-- `loadbr`: 40_load.md R77, class `N` (ignored operand). -/
  | loadbr (imm : Word)
  /-- `stoream`: 41_store.md R80, class `M` (address). -/
  | stoream (a : Word)
  /-- `storebm`: 41_store.md R81, class `M` (address). -/
  | storebm (a : Word)
  /-- `storerm`: 41_store.md R82, class `M` (address). -/
  | storerm (a : Word)
  /-- `storear`: 41_store.md R83, class `N` (ignored operand). -/
  | storear (imm : Word)
  /-- `storebr`: 41_store.md R84, class `N` (ignored operand). -/
  | storebr (imm : Word)
  /-- `addint`: 42_arith_int.md R91, class `M` (result address). -/
  | addint (d : Word)
  /-- `subint`: 42_arith_int.md R92, class `M` (result address). -/
  | subint (d : Word)
  /-- `multint`: 42_arith_int.md R93, class `M` (result address). -/
  | multint (d : Word)
  /-- `divint`: 42_arith_int.md R94, class `M` (result address). -/
  | divint (d : Word)
  /-- `modint`: 42_arith_int.md R95, class `M` (result address). -/
  | modint (d : Word)
  /-- `addfloat`: 43_arith_float.md R103, class `M` (result address). -/
  | addfloat (d : Word)
  /-- `subfloat`: 43_arith_float.md R104, class `M` (result address). -/
  | subfloat (d : Word)
  /-- `multfloat`: 43_arith_float.md R105, class `M` (result address). -/
  | multfloat (d : Word)
  /-- `divfloat`: 43_arith_float.md R106, class `M` (result address). -/
  | divfloat (d : Word)
  /-- `cmpint`: 44_compare.md R111, class `N` (ignored operand). -/
  | cmpint (imm : Word)
  /-- `cmpfloat`: 44_compare.md R112, class `N` (ignored operand). -/
  | cmpfloat (imm : Word)
  /-- `jmp`: 45_jump.md R120, class `T` (target). -/
  | jmp (t : Word)
  /-- `jeq`: 45_jump.md R121, class `T` (target). -/
  | jeq (t : Word)
  /-- `jne`: 45_jump.md R122, class `T` (target). -/
  | jne (t : Word)
  /-- `jlt`: 45_jump.md R123, class `T` (target). -/
  | jlt (t : Word)
  /-- `jle`: 45_jump.md R124, class `T` (target). -/
  | jle (t : Word)
  /-- `jgt`: 45_jump.md R125, class `T` (target). -/
  | jgt (t : Word)
  /-- `jge`: 45_jump.md R126, class `T` (target). -/
  | jge (t : Word)
  /-- `printint`: 46_print.md R131, class `M` (address). -/
  | printint (a : Word)
  /-- `printchar`: 46_print.md R132, class `M` (address). -/
  | printchar (a : Word)
  /-- `printfloat`: 46_print.md R133, class `M` (address). -/
  | printfloat (a : Word)
  /-- `printrint`: 46_print.md R134, class `N` (ignored operand). -/
  | printrint (imm : Word)
  /-- `printrfloat`: 46_print.md R135, class `N` (ignored operand). -/
  | printrfloat (imm : Word)
  /-- `hlt`: 47_control.md R140, class `N` (ignored operand). -/
  | hlt (imm : Word)
deriving DecidableEq, Repr

/-- The operand field of an instruction (R51). -/
def Instr.imm : Instr → Word
  | .loadai v => v
  | .loadbi v => v
  | .loadri v => v
  | .loadam a => a
  | .loadbm a => a
  | .loadrm a => a
  | .loadar imm => imm
  | .loadbr imm => imm
  | .stoream a => a
  | .storebm a => a
  | .storerm a => a
  | .storear imm => imm
  | .storebr imm => imm
  | .addint d => d
  | .subint d => d
  | .multint d => d
  | .divint d => d
  | .modint d => d
  | .addfloat d => d
  | .subfloat d => d
  | .multfloat d => d
  | .divfloat d => d
  | .cmpint imm => imm
  | .cmpfloat imm => imm
  | .jmp t => t
  | .jeq t => t
  | .jne t => t
  | .jlt t => t
  | .jle t => t
  | .jgt t => t
  | .jge t => t
  | .printint a => a
  | .printchar a => a
  | .printfloat a => a
  | .printrint imm => imm
  | .printrfloat imm => imm
  | .hlt imm => imm

/-- The operand class of an instruction (the table of R52). -/
def Instr.operandClass : Instr → OperandClass
  | .loadai _ => .immediate
  | .loadbi _ => .immediate
  | .loadri _ => .immediate
  | .loadam _ => .memory
  | .loadbm _ => .memory
  | .loadrm _ => .memory
  | .loadar _ => .unused
  | .loadbr _ => .unused
  | .stoream _ => .memory
  | .storebm _ => .memory
  | .storerm _ => .memory
  | .storear _ => .unused
  | .storebr _ => .unused
  | .addint _ => .memory
  | .subint _ => .memory
  | .multint _ => .memory
  | .divint _ => .memory
  | .modint _ => .memory
  | .addfloat _ => .memory
  | .subfloat _ => .memory
  | .multfloat _ => .memory
  | .divfloat _ => .memory
  | .cmpint _ => .unused
  | .cmpfloat _ => .unused
  | .jmp _ => .target
  | .jeq _ => .target
  | .jne _ => .target
  | .jlt _ => .target
  | .jle _ => .target
  | .jgt _ => .target
  | .jge _ => .target
  | .printint _ => .memory
  | .printchar _ => .memory
  | .printfloat _ => .memory
  | .printrint _ => .unused
  | .printrfloat _ => .unused
  | .hlt _ => .unused

end Sys2Proof
end

