-- ==== Sys2Proof/WellFormed.lean ====
section
/-! DEFINITION. Well-formed instructions. The width of the operand field is carried by its type (R8), so no range check is
left, and the spec rejects no operand value at encoding: literals are any 32 bits (R70), addresses and jump targets are
checked only when they are used (R72, R127), and an unused operand may be anything (R53). -/

namespace Sys2Proof

/-- Every instruction of the set is well formed, whatever its operand field: the four operand classes one by one. -/
def Instr.wellFormed (i : Instr) : Bool :=
  match i.operandClass with
  | .immediate => true   -- R52 class I, R70: every value of `imm` is legal
  | .memory => true      -- R52 class M: bounds-checked at the access, not here
  | .target => true      -- R52 class T, R127: not checked until the next fetch
  | .unused => true      -- R53: all values of `imm` encode the same instruction

/-- The instruction is in the form in which the spec writes it: an unused operand is encoded as zero (R53, decision D15).
An instruction that is not in this form is legal and executes; only its spelling is not the spec's. -/
def Instr.canonical (i : Instr) : Bool :=
  match i.operandClass with
  | .unused => i.imm == 0#32
  | .immediate => true
  | .memory => true
  | .target => true

end Sys2Proof
end

