-- ==== Sys2Proof/Decode.lean ====
section
/-! DEFINITION. Decoder and encoder of the format `OP5` (30_encoding.md R50 to R57). -/

namespace Sys2Proof

/-- The opcode field `opc = I[7:0]` (R51). -/
def opcField (w : InstrWord) : Byte := w.extractLsb' 0 8

/-- The operand field `imm = I[39:8]`, taken as it stands: never extended, shifted or scaled (R51, R52). -/
def immField (w : InstrWord) : Word := w.extractLsb' 8 32

/-- One row of the opcode map: the opcode byte and the instruction it selects for a given operand field. -/
structure OpcodeRow where
  opcode : Byte
  build  : Word → Instr

/-- The opcode map (R55). The opcode values are the spec's own (decision D1 of 92_eei_decisions.md). -/
def opcodeTable : List OpcodeRow := [
  ⟨0x01#8, .loadai⟩,
  ⟨0x02#8, .loadbi⟩,
  ⟨0x03#8, .loadri⟩,
  ⟨0x04#8, .loadam⟩,
  ⟨0x05#8, .loadbm⟩,
  ⟨0x06#8, .loadrm⟩,
  ⟨0x07#8, .loadar⟩,
  ⟨0x08#8, .loadbr⟩,
  ⟨0x09#8, .stoream⟩,
  ⟨0x0A#8, .storebm⟩,
  ⟨0x0B#8, .storerm⟩,
  ⟨0x0C#8, .storear⟩,
  ⟨0x0D#8, .storebr⟩,
  ⟨0x0E#8, .addint⟩,
  ⟨0x0F#8, .subint⟩,
  ⟨0x10#8, .multint⟩,
  ⟨0x11#8, .divint⟩,
  ⟨0x12#8, .modint⟩,
  ⟨0x13#8, .addfloat⟩,
  ⟨0x14#8, .subfloat⟩,
  ⟨0x15#8, .multfloat⟩,
  ⟨0x16#8, .divfloat⟩,
  ⟨0x17#8, .cmpint⟩,
  ⟨0x18#8, .cmpfloat⟩,
  ⟨0x19#8, .jmp⟩,
  ⟨0x1A#8, .jeq⟩,
  ⟨0x1B#8, .jne⟩,
  ⟨0x1C#8, .jlt⟩,
  ⟨0x1D#8, .jle⟩,
  ⟨0x1E#8, .jgt⟩,
  ⟨0x1F#8, .jge⟩,
  ⟨0x20#8, .printint⟩,
  ⟨0x21#8, .printchar⟩,
  ⟨0x22#8, .printfloat⟩,
  ⟨0x23#8, .printrint⟩,
  ⟨0x24#8, .printrfloat⟩,
  ⟨0x25#8, .hlt⟩]

/-- What decoding answers: an instruction, or `Invalid` with the offending opcode byte (R57). -/
inductive Decoded where
  | instr (i : Instr)
  | invalid (opc : Byte)
deriving DecidableEq, Repr

/-- Single-level dispatch on the opcode byte; the operand field takes no part in decoding (R54, R57). -/
def decode (w : InstrWord) : Decoded :=
  match opcodeTable.find? (fun row => row.opcode == opcField w) with
  | some row => .instr (row.build (immField w))
  | none => .invalid (opcField w)

/-- `I` from its five bytes, the byte at the lowest address in bits 7..0 (R51, R33). -/
def instrWordOfBytes (b0 b1 b2 b3 b4 : Byte) : InstrWord := b4 ++ b3 ++ b2 ++ b1 ++ b0

/-- The five bytes of `I`, the first at the lowest address (R51, R33). -/
def bytesOfInstrWord (w : InstrWord) : List Byte :=
  [w.extractLsb' 0 8, w.extractLsb' 8 8, w.extractLsb' 16 8, w.extractLsb' 24 8, w.extractLsb' 32 8]

/-- The opcode byte `OPC(mnemonic)` of an instruction (R55). -/
def Instr.opcode : Instr → Byte
  | .loadai _ => 0x01#8
  | .loadbi _ => 0x02#8
  | .loadri _ => 0x03#8
  | .loadam _ => 0x04#8
  | .loadbm _ => 0x05#8
  | .loadrm _ => 0x06#8
  | .loadar _ => 0x07#8
  | .loadbr _ => 0x08#8
  | .stoream _ => 0x09#8
  | .storebm _ => 0x0A#8
  | .storerm _ => 0x0B#8
  | .storear _ => 0x0C#8
  | .storebr _ => 0x0D#8
  | .addint _ => 0x0E#8
  | .subint _ => 0x0F#8
  | .multint _ => 0x10#8
  | .divint _ => 0x11#8
  | .modint _ => 0x12#8
  | .addfloat _ => 0x13#8
  | .subfloat _ => 0x14#8
  | .multfloat _ => 0x15#8
  | .divfloat _ => 0x16#8
  | .cmpint _ => 0x17#8
  | .cmpfloat _ => 0x18#8
  | .jmp _ => 0x19#8
  | .jeq _ => 0x1A#8
  | .jne _ => 0x1B#8
  | .jlt _ => 0x1C#8
  | .jle _ => 0x1D#8
  | .jgt _ => 0x1E#8
  | .jge _ => 0x1F#8
  | .printint _ => 0x20#8
  | .printchar _ => 0x21#8
  | .printfloat _ => 0x22#8
  | .printrint _ => 0x23#8
  | .printrfloat _ => 0x24#8
  | .hlt _ => 0x25#8

/-- The encoder: the instruction word of an instruction, `imm` above the opcode byte (R51, R57). -/
def encode (i : Instr) : InstrWord := i.imm ++ i.opcode

/-- The byte sequence `[OPC, v[7:0], v[15:8], v[23:16], v[31:24]]` of an instruction (R57). -/
def encodeBytes (i : Instr) : List Byte := bytesOfInstrWord (encode i)

/-- The mnemonic of an instruction, as the table spells it (R55, R58). -/
def Instr.mnemonic : Instr → String
  | .loadai _ => "loadai"
  | .loadbi _ => "loadbi"
  | .loadri _ => "loadri"
  | .loadam _ => "loadam"
  | .loadbm _ => "loadbm"
  | .loadrm _ => "loadrm"
  | .loadar _ => "loadar"
  | .loadbr _ => "loadbr"
  | .stoream _ => "stoream"
  | .storebm _ => "storebm"
  | .storerm _ => "storerm"
  | .storear _ => "storear"
  | .storebr _ => "storebr"
  | .addint _ => "addint"
  | .subint _ => "subint"
  | .multint _ => "multint"
  | .divint _ => "divint"
  | .modint _ => "modint"
  | .addfloat _ => "addfloat"
  | .subfloat _ => "subfloat"
  | .multfloat _ => "multfloat"
  | .divfloat _ => "divfloat"
  | .cmpint _ => "cmpint"
  | .cmpfloat _ => "cmpfloat"
  | .jmp _ => "jmp"
  | .jeq _ => "jeq"
  | .jne _ => "jne"
  | .jlt _ => "jlt"
  | .jle _ => "jle"
  | .jgt _ => "jgt"
  | .jge _ => "jge"
  | .printint _ => "printint"
  | .printchar _ => "printchar"
  | .printfloat _ => "printfloat"
  | .printrint _ => "printrint"
  | .printrfloat _ => "printrfloat"
  | .hlt _ => "hlt"

/-- The instruction the decoder reads from an instruction whose bits are `w`, numbered as spec/opcode_table.json numbers
them (bit 0 the least significant bit of the byte at the lowest address). Only `nbits` bits are given; the bits of the
five bytes above them are 0. The bytes are laid out in memory order and assembled as the fetch assembles them. -/
def decodeTableWord (nbits w : Nat) : Option Instr :=
  let x := w % 2 ^ nbits
  let byte (k : Nat) : Byte := BitVec.ofNat 8 (x / 256 ^ k)
  match decode (instrWordOfBytes (byte 0) (byte 1) (byte 2) (byte 3) (byte 4)) with
  | .instr i => some i
  | .invalid _ => none

end Sys2Proof
end

