-- ==== Sys2Proof/Machine/Ops.lean ====
section
/-! DEFINITION. The named operations over memory, registers and control state: the memory primitives (20_memory.md), the
fault entry `raise` (R154), the default advance and the jump (R14), `Emit` (R130), reset (R170), and the shapes that the
instruction families share. There is no return from a fault (R156), so no operation for it. -/

namespace Sys2Proof.Machine

/-- The outcome of an instruction. -/
abbrev Result := Host.Outcome State Fault Refusal

/-! ### Memory as canonical data -/

/-- One byte of a rising list of cells; an address that is not listed reads as `Memory.unlistedByte`. -/
def readCells : List Host.Cell → Nat → Byte
  | [], _ => Memory.unlistedByte
  | c :: cs, x => if x < c.1 then Memory.unlistedByte else if x = c.1 then c.2 else readCells cs x

/-- The cell list that holds `b` at `x` in front of `cs`; nothing is listed for the byte an unlisted address reads as. -/
def consCell (x : Nat) (b : Byte) (cs : List Host.Cell) : List Host.Cell :=
  if b = Memory.unlistedByte then cs else (x, b) :: cs

/-- The rising list with the byte at `x` replaced by `b`, in canonical form. -/
def writeCells : List Host.Cell → Nat → Byte → List Host.Cell
  | [], x, b => consCell x b []
  | c :: cs, x, b =>
    if x < c.1 then consCell x b (c :: cs)
    else if x = c.1 then consCell x b cs
    else c :: writeCells cs x b

/-- Canonical form of a cell list: addresses strictly rising from `lo` up, below `n`, and no cell equal to what an
unlisted address reads as. -/
def wfCells (n : Nat) : Nat → List Host.Cell → Bool
  | _, [] => true
  | lo, c :: cs => decide (lo ≤ c.1) && decide (c.1 < n) && (c.2 != Memory.unlistedByte) && wfCells n (c.1 + 1) cs

/-- The canonical form of a memory: every listed address lies in `[0, N)` (R21), rising, and no entry is redundant. -/
def Memory.wf (m : Memory) : Bool := wfCells m.size.val 0 m.cells

/-- `MEM[x]`. -/
def Memory.readByte (m : Memory) (x : Nat) : Byte := readCells m.cells x

/-- `MEM[x] <- b`. -/
def Memory.writeByte (m : Memory) (x : Nat) (b : Byte) : Memory := { m with cells := writeCells m.cells x b }

/-- Consecutive bytes written from address `x` upward. -/
def Memory.writeBytes (m : Memory) (x : Nat) : List Byte → Memory
  | [] => m
  | b :: bs => (m.writeByte x b).writeBytes (x + 1) bs

/-- The four bytes of a word, the byte of bits 7..0 first (R33). -/
def bytesOfWord (v : Word) : List Byte :=
  [v.extractLsb' 0 8, v.extractLsb' 8 8, v.extractLsb' 16 8, v.extractLsb' 24 8]

/-- A word from its four bytes, the byte at the lowest address in bits 7..0 (R33). -/
def wordOfBytes (b0 b1 b2 b3 : Byte) : Word := b3 ++ b2 ++ b1 ++ b0

/-- The word at `x`: `MEM[x] .. MEM[x+3]`, little-endian (R33). -/
def Memory.readWord (m : Memory) (x : Nat) : Word :=
  wordOfBytes (m.readByte x) (m.readByte (x + 1)) (m.readByte (x + 2)) (m.readByte (x + 3))

/-- The five bytes at `x` as an instruction word (R33, R51). -/
def Memory.readInstrWord (m : Memory) (x : Nat) : InstrWord :=
  instrWordOfBytes (m.readByte x) (m.readByte (x + 1)) (m.readByte (x + 2)) (m.readByte (x + 3)) (m.readByte (x + 4))

/-- The bounds rule: `uint(addr) + n <= N` in unbounded integers, with no wrap at `2^32` (R32, decisions D2, D5). -/
abbrev Memory.inBounds (m : Memory) (addr : Word) (n : Nat) : Prop := uint addr + n ≤ m.size.val

/-! ### The memory port: `MemRead`, `MemWrite` (R34, R35) -/

/-- `MemRead(addr, 1)`: the port's narrowest read; used by no instruction (R34). -/
def State.memRead1 (s : State) (addr : Word) : Except CoreFault Byte :=
  if s.mem.inBounds addr 1 then .ok (s.mem.readByte (uint addr)) else .error (.memoryFault addr)

/-- `MemRead(addr, 4)`: the data read (R34). It changes no state. -/
def State.memRead4 (s : State) (addr : Word) : Except CoreFault Word :=
  if s.mem.inBounds addr 4 then .ok (s.mem.readWord (uint addr)) else .error (.memoryFault addr)

/-- `MemRead(addr, 5)`: the instruction fetch (R34, R141). It changes no state. -/
def State.memRead5 (s : State) (addr : Word) : Except CoreFault InstrWord :=
  if s.mem.inBounds addr 5 then .ok (s.mem.readInstrWord (uint addr)) else .error (.memoryFault addr)

/-- `MemWrite(addr, 1, v)`: the port's narrowest write; used by no instruction (R35). -/
def State.memWrite1 (s : State) (addr : Word) (v : Byte) : Except CoreFault State :=
  if s.mem.inBounds addr 1 then .ok { s with mem := s.mem.writeByte (uint addr) v } else .error (.memoryFault addr)

/-- `MemWrite(addr, 4, v)`: the data write; the bounds check covers the whole access before any byte moves (R35). -/
def State.memWrite4 (s : State) (addr : Word) (v : Word) : Except CoreFault State :=
  if s.mem.inBounds addr 4 then .ok { s with mem := s.mem.writeBytes (uint addr) (bytesOfWord v) }
  else .error (.memoryFault addr)

/-! ### Control state -/

/-- `FAULT_CAUSE` of a fault: the code of its class (R151, decision D18). -/
def CoreFault.cause : CoreFault → BitVec 2
  | .invalidOpcode _ => 1#2
  | .memoryFault _ => 2#2
  | .divisionByZero => 3#2
  | .divideOverflow => 3#2

/-- `FAULT_INFO` of a fault (R151, decision D18). -/
def CoreFault.info : CoreFault → Word
  | .invalidOpcode opc => zext 32 opc
  | .memoryFault addr => addr
  | .divisionByZero => 0x00000000#32
  | .divideOverflow => 0x00000001#32

/-- `raise F(info)`: the fault record and STATE, and nothing else (R154). -/
def State.raise (s : State) (f : CoreFault) : State :=
  { s with status := .faulted, faultCause := f.cause, faultInfo := f.info }

/-- `pc <- pc + 5`: the default advance, step 4 of R141 (R14). -/
def State.advance (s : State) : State := { s with pc := s.pc + 5#32 }

/-- `pc <- target`: there is no advance after it (R14). The target is not checked (R15, R127). -/
def State.jump (s : State) (target : Word) : State := { s with pc := target }

/-- `STATE <- Halted`, with `pc` left at the `hlt` (R140). -/
def State.halt (s : State) : State := { s with status := .halted }

/-- All four flags written together (R17, R110). -/
def State.setFlags (s : State) (f : Flags) : State := { s with flags := f }

/-- `Emit(kind, v)`: one event appended to the end of `OUT`; it cannot fail (R130). -/
def State.emit (s : State) (e : Event) : State := { s with out := s.out ++ [e] }

/-- Reset applied to a machine in any state: the values of R24, a new empty `OUT`, and `MEM` neither read nor written
(R170, decision D23). -/
def State.applyReset (s : State) : State := { State.reset with mem := s.mem }

/-- The launch of a run: memory `m` (that is `N` and `MEM0`) provided by the platform, then reset (R172, R173). -/
def State.boot (m : Memory) : State := { State.reset with mem := m }

/-- The number of an execution state where one is wanted (R19, decision D18). -/
def RunState.code : RunState → BitVec 2
  | .running => 0#2
  | .halted => 1#2
  | .faulted => 2#2

/-! ### Shapes shared by the families -/

/-- A load: `x[d] <- MemRead(addr, 4)`, then the advance; on a fault the register is not written (R79). -/
def loadWord (d : Reg) (addr : Word) (s : State) : Result :=
  match s.memRead4 addr with
  | .error f => .next (s.raise f)
  | .ok v => .next (s.setReg d v).advance

/-- A store: `MemWrite(addr, 4, v)`, then the advance (R85). -/
def storeWord (addr v : Word) (s : State) : Result :=
  match s.memWrite4 addr v with
  | .error f => .next (s.raise f)
  | .ok t => .next t.advance

/-- An arithmetic instruction: the operation first, then the store of its result at `d` (R90, R102, R153). -/
def storeResult (res : Except CoreFault Word) (d : Word) (s : State) : Result :=
  match res with
  | .error f => .next (s.raise f)
  | .ok r => storeWord d r s

/-- A jump: `pc <- t` when `taken`, else the default advance (R127). -/
def jumpWhen (taken : Bool) (t : Word) (s : State) : Result :=
  .next (if taken then s.jump t else s.advance)

/-- A print: `v = MemRead(addr, 4)`, one event made of `v`, then the advance; on a fault no event (R137). -/
def printWord (event : Word → Event) (addr : Word) (s : State) : Result :=
  match s.memRead4 addr with
  | .error f => .next (s.raise f)
  | .ok v => .next (s.emit (event v)).advance

end Sys2Proof.Machine
end

