-- ==== Sys2Proof/Machine/Compares.lean ====
section
/-! DEFINITION. The two compare instructions (44_compare.md R110 to R112). -/

namespace Sys2Proof.Machine

/-- `cmpint` (R111). -/
def execCmpint (s : State) : Result :=
  .next (s.setFlags (flagsOf (compareInt (s.getReg .a) (s.getReg .b)))).advance

/-- `cmpfloat` (R112). -/
def execCmpfloat (s : State) : Result :=
  .next (s.setFlags (flagsOf (compareFloat (s.getReg .a) (s.getReg .b)))).advance

end Sys2Proof.Machine
end

