-- ==== Sys2Proof/Machine/Control.lean ====
section
/-! DEFINITION. The control instruction (47_control.md R140). -/

namespace Sys2Proof.Machine

/-- `hlt`: `STATE <- Halted`; `pc` is not advanced (R140, decision D19). -/
def execHlt (s : State) : Result := .next s.halt

end Sys2Proof.Machine
end

