-- ==== Sys2Proof/Machine/FloatArith.lean ====
section
/-! DEFINITION. The four float arithmetic instructions (43_arith_float.md R102 to R106): `A` the left operand, `B` the
right; the result to memory at the direct address; no fault but the store's. -/

namespace Sys2Proof.Machine

/-- `addfloat d` (R103). -/
def execAddfloat (d : Word) (s : State) : Result :=
  storeResult (.ok (addFloat (s.getReg .a) (s.getReg .b))) (s.effAddr (.direct d)) s

/-- `subfloat d` (R104). -/
def execSubfloat (d : Word) (s : State) : Result :=
  storeResult (.ok (subFloat (s.getReg .a) (s.getReg .b))) (s.effAddr (.direct d)) s

/-- `multfloat d` (R105). -/
def execMultfloat (d : Word) (s : State) : Result :=
  storeResult (.ok (mulFloat (s.getReg .a) (s.getReg .b))) (s.effAddr (.direct d)) s

/-- `divfloat d` (R106). -/
def execDivfloat (d : Word) (s : State) : Result :=
  storeResult (.ok (divFloat (s.getReg .a) (s.getReg .b))) (s.effAddr (.direct d)) s

end Sys2Proof.Machine
end

