-- ==== Sys2Proof/Machine/IntArith.lean ====
section
/-! DEFINITION. The five integer arithmetic instructions (42_arith_int.md R90 to R96): `A` the left operand, `B` the right
(decision D30), the result to memory at the direct address, no register and no flag written. -/

namespace Sys2Proof.Machine

/-- `addint`: the sum, wrapped modulo `2^32` (R91, decision D7). -/
def addInt (x y : Word) : Word := int32 (sint x + sint y)

/-- `subint`: `A` minus `B`, wrapped (R92). -/
def subInt (x y : Word) : Word := int32 (sint x - sint y)

/-- `multint`: the low 32 bits of the exact product (R93). -/
def mulInt (x y : Word) : Word := int32 (sint x * sint y)

/-- The two conditions under which the divider raises `ArithmeticFault`, in their order (R94, R95, R153, decision D9). -/
def divideFault (x y : Word) : Option CoreFault :=
  if sint y = 0 then some .divisionByZero
  else if sint x = int32Min ∧ sint y = -1 then some .divideOverflow
  else none

/-- `divint`: the exact quotient rounded toward zero (R94, decision D8). -/
def divInt (x y : Word) : Except CoreFault Word :=
  match divideFault x y with
  | some f => .error f
  | none => .ok (int32 ((sint x).tdiv (sint y)))

/-- `modint`: `a - b * trunc(a / b)` (R95, decision D8). -/
def modInt (x y : Word) : Except CoreFault Word :=
  match divideFault x y with
  | some f => .error f
  | none => .ok (int32 (sint x - sint y * (sint x).tdiv (sint y)))

/-- `addint d` (R91). -/
def execAddint (d : Word) (s : State) : Result :=
  storeResult (.ok (addInt (s.getReg .a) (s.getReg .b))) (s.effAddr (.direct d)) s

/-- `subint d` (R92). -/
def execSubint (d : Word) (s : State) : Result :=
  storeResult (.ok (subInt (s.getReg .a) (s.getReg .b))) (s.effAddr (.direct d)) s

/-- `multint d` (R93). -/
def execMultint (d : Word) (s : State) : Result :=
  storeResult (.ok (mulInt (s.getReg .a) (s.getReg .b))) (s.effAddr (.direct d)) s

/-- `divint d` (R94). -/
def execDivint (d : Word) (s : State) : Result :=
  storeResult (divInt (s.getReg .a) (s.getReg .b)) (s.effAddr (.direct d)) s

/-- `modint d` (R95). -/
def execModint (d : Word) (s : State) : Result :=
  storeResult (modInt (s.getReg .a) (s.getReg .b)) (s.effAddr (.direct d)) s

end Sys2Proof.Machine
end

