-- ==== Sys2Proof/Machine/Jumps.lean ====
section
/-! DEFINITION. The seven jump instructions (45_jump.md R120 to R127). -/

namespace Sys2Proof.Machine

/-- `jmp t`: `pc <- imm` (R120). -/
def execJmp (t : Word) (s : State) : Result := jumpWhen true t s

/-- `jeq t`: taken iff `EQ` (R121). -/
def execJeq (t : Word) (s : State) : Result := jumpWhen s.flags.eq t s

/-- `jne t`: taken iff `NE`, which is not "not `EQ`" (R122). -/
def execJne (t : Word) (s : State) : Result := jumpWhen s.flags.ne t s

/-- `jlt t`: taken iff `LT` (R123). -/
def execJlt (t : Word) (s : State) : Result := jumpWhen s.flags.lt t s

/-- `jle t`: taken iff `LT` or `EQ`, which is not "not `GT`" (R124). -/
def execJle (t : Word) (s : State) : Result := jumpWhen (s.flags.lt || s.flags.eq) t s

/-- `jgt t`: taken iff `GT` (R125). -/
def execJgt (t : Word) (s : State) : Result := jumpWhen s.flags.gt t s

/-- `jge t`: taken iff `GT` or `EQ`, which is not "not `LT`" (R126). -/
def execJge (t : Word) (s : State) : Result := jumpWhen (s.flags.gt || s.flags.eq) t s

end Sys2Proof.Machine
end

