-- ==== Sys2Proof/Machine/Loads.lean ====
section
/-! DEFINITION. The eight load instructions (40_load.md R70 to R77, R79). -/

namespace Sys2Proof.Machine

/-- `loadai v`: `x[A] <- imm` (R70). -/
def execLoadai (v : Word) (s : State) : Result := .next (s.setReg .a v).advance

/-- `loadbi v`: `x[B] <- imm` (R71). -/
def execLoadbi (v : Word) (s : State) : Result := .next (s.setReg .b v).advance

/-- `loadri v`: `x[R] <- imm`, not bounds-checked here (R72). -/
def execLoadri (v : Word) (s : State) : Result := .next (s.setReg .r v).advance

/-- `loadam a`: `x[A] <- MemRead(imm, 4)` (R73). -/
def execLoadam (a : Word) (s : State) : Result := loadWord .a (s.effAddr (.direct a)) s

/-- `loadbm a`: `x[B] <- MemRead(imm, 4)` (R74). -/
def execLoadbm (a : Word) (s : State) : Result := loadWord .b (s.effAddr (.direct a)) s

/-- `loadrm a`: `x[R] <- MemRead(imm, 4)`; the value loaded is not checked (R75). -/
def execLoadrm (a : Word) (s : State) : Result := loadWord .r (s.effAddr (.direct a)) s

/-- `loadar`: `x[A] <- MemRead(x[R], 4)` (R76). -/
def execLoadar (s : State) : Result := loadWord .a (s.effAddr .indirect) s

/-- `loadbr`: `x[B] <- MemRead(x[R], 4)` (R77). -/
def execLoadbr (s : State) : Result := loadWord .b (s.effAddr .indirect) s

end Sys2Proof.Machine
end

