-- ==== Sys2Proof/Machine/Prints.lean ====
section
/-! DEFINITION. The five print instructions (46_print.md R131 to R135, R137). -/

namespace Sys2Proof.Machine

/-- `printint a`: `Emit(Int, MemRead(imm, 4))` (R131). -/
def execPrintint (a : Word) (s : State) : Result := printWord .int (s.effAddr (.direct a)) s

/-- `printchar a`: `Emit(Char, v[7:0])` with `v = MemRead(imm, 4)`, a 4-byte access (R132, decision D16). -/
def execPrintchar (a : Word) (s : State) : Result :=
  printWord (fun v => .char (v.extractLsb' 0 8)) (s.effAddr (.direct a)) s

/-- `printfloat a`: `Emit(Float, MemRead(imm, 4))`, the bits unconverted (R133). -/
def execPrintfloat (a : Word) (s : State) : Result := printWord .float (s.effAddr (.direct a)) s

/-- `printrint`: `Emit(Int, MemRead(x[R], 4))` (R134). -/
def execPrintrint (s : State) : Result := printWord .int (s.effAddr .indirect) s

/-- `printrfloat`: `Emit(Float, MemRead(x[R], 4))` (R135). -/
def execPrintrfloat (s : State) : Result := printWord .float (s.effAddr .indirect) s

end Sys2Proof.Machine
end

