-- ==== Sys2Proof/Machine/Stores.lean ====
section
/-! DEFINITION. The five store instructions (41_store.md R80 to R85). -/

namespace Sys2Proof.Machine

/-- `stoream a`: `MemWrite(imm, 4, x[A])` (R80). -/
def execStoream (a : Word) (s : State) : Result := storeWord (s.effAddr (.direct a)) (s.getReg .a) s

/-- `storebm a`: `MemWrite(imm, 4, x[B])` (R81). -/
def execStorebm (a : Word) (s : State) : Result := storeWord (s.effAddr (.direct a)) (s.getReg .b) s

/-- `storerm a`: `MemWrite(imm, 4, x[R])`; `R` is stored, not used as an address (R82). -/
def execStorerm (a : Word) (s : State) : Result := storeWord (s.effAddr (.direct a)) (s.getReg .r) s

/-- `storear`: `MemWrite(x[R], 4, x[A])` (R83). -/
def execStorear (s : State) : Result := storeWord (s.effAddr .indirect) (s.getReg .a) s

/-- `storebr`: `MemWrite(x[R], 4, x[B])` (R84). -/
def execStorebr (s : State) : Result := storeWord (s.effAddr .indirect) (s.getReg .b) s

end Sys2Proof.Machine
end

