-- ==== Sys2Proof/Machine/Dispatch.lean ====
section
/-! DEFINITION. The execute phase and the advance of one instruction (steps 3 and 4 of 47_control.md R141): one arm per
instruction, one direct call of its meaning. -/

namespace Sys2Proof.Machine

def exec (i : Instr) (s : State) : Host.Outcome State Fault Refusal :=
  match i with
  | .loadai v => Sys2Proof.Machine.execLoadai v s
  | .loadbi v => Sys2Proof.Machine.execLoadbi v s
  | .loadri v => Sys2Proof.Machine.execLoadri v s
  | .loadam a => Sys2Proof.Machine.execLoadam a s
  | .loadbm a => Sys2Proof.Machine.execLoadbm a s
  | .loadrm a => Sys2Proof.Machine.execLoadrm a s
  | .loadar _ => Sys2Proof.Machine.execLoadar s
  | .loadbr _ => Sys2Proof.Machine.execLoadbr s
  | .stoream a => Sys2Proof.Machine.execStoream a s
  | .storebm a => Sys2Proof.Machine.execStorebm a s
  | .storerm a => Sys2Proof.Machine.execStorerm a s
  | .storear _ => Sys2Proof.Machine.execStorear s
  | .storebr _ => Sys2Proof.Machine.execStorebr s
  | .addint d => Sys2Proof.Machine.execAddint d s
  | .subint d => Sys2Proof.Machine.execSubint d s
  | .multint d => Sys2Proof.Machine.execMultint d s
  | .divint d => Sys2Proof.Machine.execDivint d s
  | .modint d => Sys2Proof.Machine.execModint d s
  | .addfloat d => Sys2Proof.Machine.execAddfloat d s
  | .subfloat d => Sys2Proof.Machine.execSubfloat d s
  | .multfloat d => Sys2Proof.Machine.execMultfloat d s
  | .divfloat d => Sys2Proof.Machine.execDivfloat d s
  | .cmpint _ => Sys2Proof.Machine.execCmpint s
  | .cmpfloat _ => Sys2Proof.Machine.execCmpfloat s
  | .jmp t => Sys2Proof.Machine.execJmp t s
  | .jeq t => Sys2Proof.Machine.execJeq t s
  | .jne t => Sys2Proof.Machine.execJne t s
  | .jlt t => Sys2Proof.Machine.execJlt t s
  | .jle t => Sys2Proof.Machine.execJle t s
  | .jgt t => Sys2Proof.Machine.execJgt t s
  | .jge t => Sys2Proof.Machine.execJge t s
  | .printint a => Sys2Proof.Machine.execPrintint a s
  | .printchar a => Sys2Proof.Machine.execPrintchar a s
  | .printfloat a => Sys2Proof.Machine.execPrintfloat a s
  | .printrint _ => Sys2Proof.Machine.execPrintrint s
  | .printrfloat _ => Sys2Proof.Machine.execPrintrfloat s
  | .hlt _ => Sys2Proof.Machine.execHlt s

end Sys2Proof.Machine
end

