-- ==== Sys2Proof/Machine/Fetch.lean ====
section
/-! DEFINITION. Fetching an instruction (47_control.md R141) and placing one where the next fetch reads it. -/

namespace Sys2Proof.Machine

/-- The fetch: one 5-byte access at `pc`, bounds-checked as a whole, for every instruction (R141, decision D4). -/
def State.fetch (s : State) : Except CoreFault InstrWord := s.memRead5 s.pc

/-- The state with the five bytes of `w` at `pc`, where the fetch reads them; a state whose `pc` leaves no room for five
bytes is unchanged (its fetch faults, R144). -/
def State.placeInstr (s : State) (w : InstrWord) : State :=
  if s.mem.inBounds s.pc 5 then { s with mem := s.mem.writeBytes (uint s.pc) (bytesOfInstrWord w) } else s

end Sys2Proof.Machine
end

