-- ==== Sys2Proof/Machine/Step.lean ====
section
/-! DEFINITION. One step of the execution loop (47_control.md R141, R143). -/

namespace Sys2Proof.Machine

/-- The step of R141: require `Running`, fetch, decode, execute, advance. The faults of the fetch and of the decoder are
taken here by `raise`; those of the execute phase in the meanings. In `Halted` and `Faulted` there is no step (R143). -/
def step (s : State) : Host.Outcome State Fault Refusal :=
  match s.status with
  | .halted => .fault .halted
  | .faulted => .fault .faulted
  | .running =>
    match s.fetch with
    | .error f => .next (s.raise f)
    | .ok w =>
      match decode w with
      | .invalid opc => .next (s.raise (.invalidOpcode opc))
      | .instr i => exec i s

/-- `s` with the instruction whose low `nbits` bits are `w` (the bits of the five bytes above them 0) stored at `pc`, where
the next step fetches. Nothing else is changed (notes/assumptions/5.md). -/
def State.withFetchWord (s : State) (nbits w : Nat) : State := s.placeInstr (BitVec.ofNat 40 (w % 2 ^ nbits))

end Sys2Proof.Machine
end

