-- ==== Sys2Proof/Machine/Output.lean ====
section
/-! DEFINITION. The output stream as text: `TEXT(OUT)` (46_print.md R130, R136). -/

namespace Sys2Proof.Machine

/-- The number of an event's kind where one is wanted: `Int = 0`, `Char = 1`, `Float = 2` (R130). -/
def Event.kind : Event → Nat
  | .int _ => 0
  | .char _ => 1
  | .float _ => 2

/-- The ASCII digits of `n`, most significant first, no leading zeros, `0` for zero; `fuel` bounds the number of digits. -/
def decimalDigits : Nat → Nat → List Byte
  | 0, _ => []
  | fuel + 1, n =>
    if n < 10 then [BitVec.ofNat 8 (0x30 + n)]
    else decimalDigits fuel (n / 10) ++ [BitVec.ofNat 8 (0x30 + n % 10)]

/-- The decimal numeral of `sint(v)`: `-` (0x2D) before a negative number, nothing before a positive one (R136, D17).
The magnitude is at most `2^31`, which has ten digits. -/
def intText (v : Word) : List Byte :=
  if sint v < 0 then 0x2D#8 :: decimalDigits 10 (sint v).natAbs else decimalDigits 10 (sint v).natAbs

/-- The rendering of one event (R136). -/
def Event.text : Event → List Byte
  | .int v => intText v
  | .char b => [b]
  | .float v => Config.floatFormat v

/-- `TEXT(OUT)`: the renderings in order, with nothing between them (R136). -/
def textOf (out : List Event) : List Byte := out.flatMap Event.text

end Sys2Proof.Machine
end

