-- ==== Sys2Proof/Machine/Port.lean ====
section
/-! DEFINITION. The memory read/write port at transaction level (20_memory.md R37, R45): the transactions, the outcome of
each, and which of them a step issues, in order, each after the outcome of the one before. -/

namespace Sys2Proof.Machine

/-- A transaction `(kind, addr, n, wdata)` of the port: a read of 1, 4 or 5 bytes, or a write of 1 or 4 bytes with its
`8n` bits of data (R45). -/
inductive Transaction where
  | read1 (addr : Word)
  | read4 (addr : Word)
  | read5 (addr : Word)
  | write1 (addr : Word) (wdata : Byte)
  | write4 (addr : Word) (wdata : Word)
deriving DecidableEq, Repr

/-- `addr`, the start address of a transaction. -/
def Transaction.addr : Transaction → Word
  | .read1 addr | .read4 addr | .read5 addr => addr
  | .write1 addr _ => addr
  | .write4 addr _ => addr

/-- `n`, the number of bytes of a transaction. -/
def Transaction.width : Transaction → Nat
  | .read1 _ => 1
  | .read4 _ => 4
  | .read5 _ => 5
  | .write1 _ _ => 1
  | .write4 _ _ => 4

/-- The outcome of a transaction: completion, with `8n` bits of read data for a read, or a bounds fault (R45). -/
inductive PortOutcome where
  | data1 (v : Byte)
  | data4 (v : Word)
  | data5 (v : InstrWord)
  | written
  | boundsFault
deriving DecidableEq, Repr

/-- The outcome of a read: its data, or the bounds fault. -/
def readOutcome {α : Type} (data : α → PortOutcome) : Except CoreFault α → PortOutcome
  | .ok v => data v
  | .error _ => .boundsFault

/-- The outcome of a write and the state after it: a write that faults leaves the state as it was (R35). -/
def writeOutcome (s : State) : Except CoreFault State → PortOutcome × State
  | .ok t => (.written, t)
  | .error _ => (.boundsFault, s)

/-- One transaction carried out over the memory: its outcome, and the state after it (R34, R35, R45). -/
def State.transact (s : State) : Transaction → PortOutcome × State
  | .read1 addr => (readOutcome .data1 (s.memRead1 addr), s)
  | .read4 addr => (readOutcome .data4 (s.memRead4 addr), s)
  | .read5 addr => (readOutcome .data5 (s.memRead5 addr), s)
  | .write1 addr wdata => writeOutcome s (s.memWrite1 addr wdata)
  | .write4 addr wdata => writeOutcome s (s.memWrite4 addr wdata)

/-- The store of a result; a fault of the operation comes before the store, which is then not issued (R90, R153). -/
def resultTransaction (res : Except CoreFault Word) (d : Word) : Option Transaction :=
  match res with
  | .error _ => none
  | .ok r => some (.write4 d r)

/-- The data access of the execute phase, at most one per instruction (the table of R37). -/
def dataTransaction (i : Instr) (s : State) : Option Transaction :=
  match i with
  | .loadai _ | .loadbi _ | .loadri _ => none
  | .loadam a | .loadbm a | .loadrm a => some (.read4 (s.effAddr (.direct a)))
  | .loadar _ | .loadbr _ => some (.read4 (s.effAddr .indirect))
  | .stoream a => some (.write4 (s.effAddr (.direct a)) s.a)
  | .storebm a => some (.write4 (s.effAddr (.direct a)) s.b)
  | .storerm a => some (.write4 (s.effAddr (.direct a)) s.r)
  | .storear _ => some (.write4 (s.effAddr .indirect) s.a)
  | .storebr _ => some (.write4 (s.effAddr .indirect) s.b)
  | .addint d => resultTransaction (.ok (addInt s.a s.b)) (s.effAddr (.direct d))
  | .subint d => resultTransaction (.ok (subInt s.a s.b)) (s.effAddr (.direct d))
  | .multint d => resultTransaction (.ok (mulInt s.a s.b)) (s.effAddr (.direct d))
  | .divint d => resultTransaction (divInt s.a s.b) (s.effAddr (.direct d))
  | .modint d => resultTransaction (modInt s.a s.b) (s.effAddr (.direct d))
  | .addfloat d => resultTransaction (.ok (addFloat s.a s.b)) (s.effAddr (.direct d))
  | .subfloat d => resultTransaction (.ok (subFloat s.a s.b)) (s.effAddr (.direct d))
  | .multfloat d => resultTransaction (.ok (mulFloat s.a s.b)) (s.effAddr (.direct d))
  | .divfloat d => resultTransaction (.ok (divFloat s.a s.b)) (s.effAddr (.direct d))
  | .cmpint _ | .cmpfloat _ => none
  | .jmp _ | .jeq _ | .jne _ | .jlt _ | .jle _ | .jgt _ | .jge _ => none
  | .printint a | .printchar a | .printfloat a => some (.read4 (s.effAddr (.direct a)))
  | .printrint _ | .printrfloat _ => some (.read4 (s.effAddr .indirect))
  | .hlt _ => none

/-- The exchanges of the step from `s` over the port, in order: the fetch with its outcome; then, only once the fetch has
completed with an instruction, the data access of that instruction with its outcome. In `Halted` and `Faulted` there is no
step, so no transaction (R37, R45, R141, R143). -/
def State.exchanges (s : State) : List (Transaction × PortOutcome) :=
  match s.status with
  | .halted => []
  | .faulted => []
  | .running =>
    match s.fetch with
    | .error _ => [(.read5 s.pc, .boundsFault)]
    | .ok w =>
      (.read5 s.pc, .data5 w) ::
        match decode w with
        | .invalid _ => []
        | .instr i => (dataTransaction i s).toList.map fun t => (t, (s.transact t).1)

/-- The transactions of the step from `s`, in order. -/
def State.transactions (s : State) : List Transaction := s.exchanges.map Prod.fst

end Sys2Proof.Machine
end

