-- ==== Sys2Proof/Safety.lean ====
section
/-! DEFINITION. Runs and their ends (47_control.md R143 to R146), the state invariant, and the words in which the statements
speak of memory, frames and rounding. -/

namespace Sys2Proof.Machine

/-! ### Runs -/

/-- `Halted` and `Faulted` are terminal (R143). -/
abbrev State.terminal (s : State) : Prop := s.status ≠ .running

/-- A run ended normally iff its final state is `Halted` (R146). -/
abbrev State.endedNormally (s : State) : Prop := s.status = .halted

/-- What a run under fuel answers: running out of fuel is "not finished", never a halt (R145). -/
inductive RunEnd where
  | finished (s : State)
  | notFinished (s : State)
deriving DecidableEq, Repr

/-- At most `fuel` steps, ending at the first terminal state (R146). -/
def runFor : Nat → State → RunEnd
  | 0, s => if s.status = .running then .notFinished s else .finished s
  | fuel + 1, s =>
    match step s with
    | .next t => runFor fuel t
    | .fault _ => .finished s
    | .refused _ => .notFinished s

/-! ### The invariant -/

/-- One of the four values a compare leaves, or the reset value (R18). -/
def Flags.legal (f : Flags) : Bool :=
  f.bits == 0b0000#4 || f.bits == 0b1001#4 || f.bits == 0b1010#4 || f.bits == 0b0100#4 || f.bits == 0b1000#4

/-- The fault record says why the state is `Faulted`, and is zero otherwise (R20, R151). -/
def State.faultRecordOk (s : State) : Prop :=
  if s.status = .faulted then
    (s.faultCause = 1#2 ∧ (s.faultInfo = 0#32 ∨ (0x26 ≤ s.faultInfo.toNat ∧ s.faultInfo.toNat ≤ 0xFF))) ∨
    (s.faultCause = 2#2 ∧ s.mem.size.val < uint s.faultInfo + 5) ∨
    (s.faultCause = 3#2 ∧ (s.faultInfo = 0#32 ∨ s.faultInfo = 1#32))
  else s.faultCause = 0#2 ∧ s.faultInfo = 0#32

/-- What every step keeps: canonical memory, legal flags, and a fault record that agrees with STATE. -/
structure State.Inv (s : State) : Prop where
  memory : s.mem.wf = true
  flags  : s.flags.legal = true
  record : s.faultRecordOk

/-! ### Words of the statements -/

/-- The state `Faulted` that `raise F(info)` leaves: everything else as before (R154). -/
def State.faultedWith (s : State) (cause : BitVec 2) (info : Word) : State :=
  { s with status := .faulted, faultCause := cause, faultInfo := info }

/-- The four bytes at `addr` hold `v`, little-endian (R33): byte `k` of `v` is at `addr + k`. -/
abbrev Memory.HoldsWord (m : Memory) (addr v : Word) : Prop :=
  ∀ k, k < 4 → m.readByte (uint addr + k) = v.extractLsb' (8 * k) 8

/-- The five bytes at `addr` are the bytes of `w`, lowest address first (R51). -/
abbrev Memory.HoldsInstr (m : Memory) (addr : Word) (w : InstrWord) : Prop :=
  ∀ k, k < 5 → m.readByte (uint addr + k) = w.extractLsb' (8 * k) 8

/-- `t` is `s` after an instruction that stores the word `v` at `addr` and does nothing else but advance: the four bytes
at `addr` hold `v`, every other byte of memory reads as before, and every other field is as before (R35, R85). -/
def StoresOnly (s t : State) (addr v : Word) : Prop :=
  t = { s with pc := s.pc + 5#32, mem := t.mem } ∧
  t.mem.size = s.mem.size ∧
  t.mem.wf = true ∧
  t.mem.HoldsWord addr v ∧
  ∀ x, (x < uint addr ∨ uint addr + 4 ≤ x) → t.mem.readByte x = s.mem.readByte x

/-- `i` stores `v` at `addr` when those four bytes lie in memory, and otherwise raises `MemoryFault(addr)` with no byte
written. -/
def StoresOrFaults (i : Instr) (s : State) (addr v : Word) : Prop :=
  (uint addr + 4 ≤ s.mem.size.val → ∃ t, exec i s = .next t ∧ StoresOnly s t addr v) ∧
  (s.mem.size.val < uint addr + 4 → exec i s = .next (s.faultedWith 2#2 addr))

/-- The number of units a finite datum stands for, as a rational number (R100). -/
def unitsValue (neg : Bool) (units : Nat) : ℚ := (if neg then -1 else 1) * (units : ℚ) * (2 : ℚ) ^ (-149 : ℤ)

/-- `r` is `fbits(round(z))` for `z = ± n / d` units with `n` and `d` positive, said of all binary32 patterns (R101): at or
above the overflow threshold the infinity of the sign of `z`; below it the finite pattern of the sign of `z` whose value is
at least as near to `z` as that of every finite pattern `w`, and whose bit 0 is 0 if another value is equally near. -/
def IsRounded (neg : Bool) (n d : Nat) (r : Word) : Prop :=
  ((2 ^ 25 - 1) * 2 ^ 252 * d ≤ n → r = infinityBits neg) ∧
  (n < (2 ^ 25 - 1) * 2 ^ 252 * d →
    ∃ k, fval r = some (.finite neg k) ∧
      ∀ w u j, fval w = some (.finite u j) →
        (signedUnits neg n - signedUnits neg k * d).natAbs ≤ (signedUnits neg n - signedUnits u j * d).natAbs ∧
        (signedUnits u j ≠ signedUnits neg k →
          (signedUnits neg n - signedUnits neg k * d).natAbs = (signedUnits neg n - signedUnits u j * d).natAbs →
          r.getLsbD 0 = false))

/-- The registers an instruction may write: the column "written by" of R12. -/
def regsWritten : Instr → List Reg
  | .loadai _ => [.a]
  | .loadbi _ => [.b]
  | .loadri _ => [.r]
  | .loadam _ => [.a]
  | .loadbm _ => [.b]
  | .loadrm _ => [.r]
  | .loadar _ => [.a]
  | .loadbr _ => [.b]
  | .stoream _ => []
  | .storebm _ => []
  | .storerm _ => []
  | .storear _ => []
  | .storebr _ => []
  | .addint _ => []
  | .subint _ => []
  | .multint _ => []
  | .divint _ => []
  | .modint _ => []
  | .addfloat _ => []
  | .subfloat _ => []
  | .multfloat _ => []
  | .divfloat _ => []
  | .cmpint _ => []
  | .cmpfloat _ => []
  | .jmp _ => []
  | .jeq _ => []
  | .jne _ => []
  | .jlt _ => []
  | .jle _ => []
  | .jgt _ => []
  | .jge _ => []
  | .printint _ => []
  | .printchar _ => []
  | .printfloat _ => []
  | .printrint _ => []
  | .printrfloat _ => []
  | .hlt _ => []

/-- The registers an instruction reads: the column "read by" of R12. -/
def regsRead : Instr → List Reg
  | .loadai _ => []
  | .loadbi _ => []
  | .loadri _ => []
  | .loadam _ => []
  | .loadbm _ => []
  | .loadrm _ => []
  | .loadar _ => [.r]
  | .loadbr _ => [.r]
  | .stoream _ => [.a]
  | .storebm _ => [.b]
  | .storerm _ => [.r]
  | .storear _ => [.a, .r]
  | .storebr _ => [.b, .r]
  | .addint _ => [.a, .b]
  | .subint _ => [.a, .b]
  | .multint _ => [.a, .b]
  | .divint _ => [.a, .b]
  | .modint _ => [.a, .b]
  | .addfloat _ => [.a, .b]
  | .subfloat _ => [.a, .b]
  | .multfloat _ => [.a, .b]
  | .divfloat _ => [.a, .b]
  | .cmpint _ => [.a, .b]
  | .cmpfloat _ => [.a, .b]
  | .jmp _ => []
  | .jeq _ => []
  | .jne _ => []
  | .jlt _ => []
  | .jle _ => []
  | .jgt _ => []
  | .jge _ => []
  | .printint _ => []
  | .printchar _ => []
  | .printfloat _ => []
  | .printrint _ => [.r]
  | .printrfloat _ => [.r]
  | .hlt _ => []

/-- The compare instructions, the only writers of the flags (R17). -/
def isCompare : Instr → Bool
  | .loadai _ | .loadbi _ | .loadri _ | .loadam _ | .loadbm _ | .loadrm _ | .loadar _ | .loadbr _ => false
  | .stoream _ | .storebm _ | .storerm _ | .storear _ | .storebr _ => false
  | .addint _ | .subint _ | .multint _ | .divint _ | .modint _ => false
  | .addfloat _ | .subfloat _ | .multfloat _ | .divfloat _ => false
  | .cmpint _ | .cmpfloat _ => true
  | .jmp _ | .jeq _ | .jne _ | .jlt _ | .jle _ | .jgt _ | .jge _ => false
  | .printint _ | .printchar _ | .printfloat _ | .printrint _ | .printrfloat _ => false
  | .hlt _ => false

/-- The six conditional jumps, the only readers of the flags (R17). -/
def isConditionalJump : Instr → Bool
  | .loadai _ | .loadbi _ | .loadri _ | .loadam _ | .loadbm _ | .loadrm _ | .loadar _ | .loadbr _ => false
  | .stoream _ | .storebm _ | .storerm _ | .storear _ | .storebr _ => false
  | .addint _ | .subint _ | .multint _ | .divint _ | .modint _ => false
  | .addfloat _ | .subfloat _ | .multfloat _ | .divfloat _ => false
  | .cmpint _ | .cmpfloat _ => false
  | .jmp _ => false
  | .jeq _ | .jne _ | .jlt _ | .jle _ | .jgt _ | .jge _ => true
  | .printint _ | .printchar _ | .printfloat _ | .printrint _ | .printrfloat _ => false
  | .hlt _ => false

/-- The five print instructions (R22, R137). -/
def isPrint : Instr → Bool
  | .loadai _ | .loadbi _ | .loadri _ | .loadam _ | .loadbm _ | .loadrm _ | .loadar _ | .loadbr _ => false
  | .stoream _ | .storebm _ | .storerm _ | .storear _ | .storebr _ => false
  | .addint _ | .subint _ | .multint _ | .divint _ | .modint _ => false
  | .addfloat _ | .subfloat _ | .multfloat _ | .divfloat _ => false
  | .cmpint _ | .cmpfloat _ => false
  | .jmp _ | .jeq _ | .jne _ | .jlt _ | .jle _ | .jgt _ | .jge _ => false
  | .printint _ | .printchar _ | .printfloat _ | .printrint _ | .printrfloat _ => true
  | .hlt _ => false

/-- Where `pc <- target` happens, and its target: the taken jumps (R14, R113). -/
def jumpTarget (i : Instr) (f : Flags) : Option Word :=
  match i with
  | .loadai _ | .loadbi _ | .loadri _ | .loadam _ | .loadbm _ | .loadrm _ | .loadar _ | .loadbr _ => none
  | .stoream _ | .storebm _ | .storerm _ | .storear _ | .storebr _ => none
  | .addint _ | .subint _ | .multint _ | .divint _ | .modint _ => none
  | .addfloat _ | .subfloat _ | .multfloat _ | .divfloat _ => none
  | .cmpint _ | .cmpfloat _ => none
  | .jmp t => some t
  | .jeq t => if f.eq then some t else none
  | .jne t => if f.ne then some t else none
  | .jlt t => if f.lt then some t else none
  | .jle t => if f.lt ∨ f.eq then some t else none
  | .jgt t => if f.gt then some t else none
  | .jge t => if f.gt ∨ f.eq then some t else none
  | .printint _ | .printchar _ | .printfloat _ | .printrint _ | .printrfloat _ => none
  | .hlt _ => none

/-- `p < q` in the order of the extended reals (R112). -/
def FloatNumber.Less : FloatNumber → FloatNumber → Prop
  | .infinity s, .infinity t => s = true ∧ t = false
  | .infinity s, .finite _ _ => s = true
  | .finite _ _, .infinity t => t = false
  | .finite s m, .finite t n => unitsValue s m < unitsValue t n

/-- `p = q` as numbers: `-0 = +0` (R112). -/
def FloatNumber.Same : FloatNumber → FloatNumber → Prop
  | .infinity s, .infinity t => s = t
  | .infinity _, .finite _ _ => False
  | .finite _ _, .infinity _ => False
  | .finite s m, .finite t n => unitsValue s m = unitsValue t n

/-- `a < b` for two patterns: neither is a NaN and the numbers are in order (R112, R114). -/
def FloatLess (x y : Word) : Prop := ∃ p q, fval x = some p ∧ fval y = some q ∧ p.Less q

/-- `a = b` for two patterns as floats (R112). -/
def FloatSame (x y : Word) : Prop := ∃ p q, fval x = some p ∧ fval y = some q ∧ p.Same q

/-- The rule of `addfloat` for the operands `x`, `y` and the result `r` (R103). -/
def AddFloatRule (x y r : Word) : Prop :=
  match fval x, fval y with
  | none, _ => r = nanGen .add x y
  | some _, none => r = nanGen .add x y
  | some (.infinity s), some (.infinity t) => if s = t then r = x else r = nanGen .add x y
  | some (.infinity _), some (.finite _ _) => r = x
  | some (.finite _ _), some (.infinity _) => r = y
  | some (.finite s m), some (.finite t n) =>
    let z := signedUnits s m + signedUnits t n
    if z = 0 then (if x = 0x80000000#32 ∧ y = 0x80000000#32 then r = 0x80000000#32 else r = 0x00000000#32)
    else IsRounded (decide (z < 0)) z.natAbs 1 r

/-- The rule of `subfloat` (R104). -/
def SubFloatRule (x y r : Word) : Prop :=
  match fval x, fval y with
  | none, _ => r = nanGen .sub x y
  | some _, none => r = nanGen .sub x y
  | some (.infinity s), some (.infinity t) => if s = t then r = nanGen .sub x y else r = x
  | some (.infinity _), some (.finite _ _) => r = x
  | some (.finite _ _), some (.infinity t) => r = infinityBits (!t)
  | some (.finite s m), some (.finite t n) =>
    let z := signedUnits s m - signedUnits t n
    if z = 0 then (if x = 0x80000000#32 ∧ y = 0x00000000#32 then r = 0x80000000#32 else r = 0x00000000#32)
    else IsRounded (decide (z < 0)) z.natAbs 1 r

/-- The rule of `multfloat`, `sg` the exclusive-or of the sign bits (R105): the exact product of `m` and `n` units of
`2^-149` is the ratio `m * n / 2^149` of units. -/
def MultFloatRule (x y r : Word) : Prop :=
  let sg := x.getLsbD 31 ^^ y.getLsbD 31
  match fval x, fval y with
  | none, _ => r = nanGen .mul x y
  | some _, none => r = nanGen .mul x y
  | some (.infinity _), some (.infinity _) => r = infinityBits sg
  | some (.infinity _), some (.finite _ n) => if n = 0 then r = nanGen .mul x y else r = infinityBits sg
  | some (.finite _ m), some (.infinity _) => if m = 0 then r = nanGen .mul x y else r = infinityBits sg
  | some (.finite _ m), some (.finite _ n) =>
    if m = 0 ∨ n = 0 then r = zeroBits sg else IsRounded sg (m * n) (2 ^ 149) r

/-- The rule of `divfloat`, `sg` the exclusive-or of the sign bits (R106): the exact quotient of `m` and `n` units is the
ratio `m * 2^149 / n` of units. -/
def DivFloatRule (x y r : Word) : Prop :=
  let sg := x.getLsbD 31 ^^ y.getLsbD 31
  match fval x, fval y with
  | none, _ => r = nanGen .div x y
  | some _, none => r = nanGen .div x y
  | some (.infinity _), some (.infinity _) => r = nanGen .div x y
  | some (.infinity _), some (.finite _ _) => r = infinityBits sg
  | some (.finite _ _), some (.infinity _) => r = zeroBits sg
  | some (.finite _ m), some (.finite _ n) =>
    if n = 0 then (if m = 0 then r = nanGen .div x y else r = infinityBits sg)
    else if m = 0 then r = zeroBits sg
    else IsRounded sg (m * 2 ^ 149) n r

/-- `i` stores at `d` a word that keeps `rule` with `x[A]` and `x[B]` and does nothing else but advance, when the four bytes
at `d` lie in memory; otherwise it raises `MemoryFault(d)` and writes nothing (R102). -/
def StoresByRule (rule : Word → Word → Word → Prop) (i : Instr) (s : State) (d : Word) : Prop :=
  (uint d + 4 ≤ s.mem.size.val → ∃ t r, exec i s = .next t ∧ rule s.a s.b r ∧ StoresOnly s t d r) ∧
  (s.mem.size.val < uint d + 4 → exec i s = .next (s.faultedWith 2#2 d))

/-- `i` appends the one event `event v`, `v` the word at `addr`, and does nothing else but advance, when the four bytes at
`addr` lie in memory; otherwise it raises `MemoryFault(addr)` and appends nothing (R137). -/
def PrintsOrFaults (event : Word → Event) (i : Instr) (s : State) (addr : Word) : Prop :=
  (uint addr + 4 ≤ s.mem.size.val →
    ∃ v, s.mem.HoldsWord addr v ∧ exec i s = .next { s with out := s.out ++ [event v], pc := s.pc + 5#32 }) ∧
  (s.mem.size.val < uint addr + 4 → exec i s = .next (s.faultedWith 2#2 addr))

/-- `i` loads the word at `addr` into the register `d` and does nothing else but advance, when the four bytes at `addr` lie
in memory; otherwise it raises `MemoryFault(addr)` and the register is not written (R79). -/
def LoadsOrFaults (d : Reg) (i : Instr) (s : State) (addr : Word) : Prop :=
  (uint addr + 4 ≤ s.mem.size.val →
    ∃ v, s.mem.HoldsWord addr v ∧ exec i s = .next { s.setReg d v with pc := s.pc + 5#32 }) ∧
  (s.mem.size.val < uint addr + 4 → exec i s = .next (s.faultedWith 2#2 addr))

/-- The five bytes of an instruction with the opcode `opc` and the operand field `v` (R51, R57). -/
def opcodeThenOperand (opc : Byte) (v : Word) : List Byte :=
  [opc, v.extractLsb' 0 8, v.extractLsb' 8 8, v.extractLsb' 16 8, v.extractLsb' 24 8]

/-- The machine is `Running` and the five bytes at `pc` lie in memory: the fetch completes (R141). -/
abbrev State.fetches (s : State) : Prop := s.status = .running ∧ uint s.pc + 5 ≤ s.mem.size.val

/-- The machine is `Running`, and the five bytes at `pc` lie in memory and are those of `i`. -/
abbrev State.AtInstr (s : State) (i : Instr) : Prop := s.fetches ∧ s.mem.HoldsInstr s.pc (encode i)

end Sys2Proof.Machine
end

