-- ==== Sys2Proof/Certificates/Slice0/Obligations.lean ====
section
/-! DEFINITION. The statements for the provers, from the numbered rules of spec/. -/

open Sys2Proof Sys2Proof.Machine

/-- Decoding and encoding are inverse on all 37 instructions and all 40 bits (R51, R52, R55, 30_encoding.md 5). R57 is
the spec's own inference from these rules ("[derived: from rules R51, R52 and R55]"). -/
def Obligations.DecodeEncodeRoundTrip : Prop :=
  (∀ i : Instr, encodeBytes i = opcodeThenOperand i.opcode i.imm) ∧
  (∀ (w : InstrWord) (i : Instr), decode w = .instr i ↔ (i.opcode = w.extractLsb' 0 8 ∧ i.imm = w.extractLsb' 8 32)) ∧
  (∀ (w : InstrWord) (opc : Byte),
    decode w = .invalid opc ↔ (opc = w.extractLsb' 0 8 ∧ ∀ i : Instr, i.opcode ≠ w.extractLsb' 0 8)) ∧
  (∀ i : Instr, decode (encode i) = .instr i) ∧
  (∀ (w : InstrWord) (i : Instr), decode w = .instr i → encode i = w)

/-- The illegal opcode bytes are 0x00 and 0x26 to 0xFF, and fetching one raises InvalidOpcode (R56). -/
def Obligations.IllegalOpcodesRaiseInvalidOpcode : Prop :=
  (∀ w : InstrWord, (∃ opc, decode w = .invalid opc) ↔
    (w.extractLsb' 0 8 = 0x00#8 ∨ 0x26 ≤ (w.extractLsb' 0 8).toNat)) ∧
  ((List.range 256).filter (fun n => (decode (BitVec.ofNat 40 n)) = .invalid (BitVec.ofNat 8 n))).length = 219 ∧
  (∀ (s : State) (w : InstrWord), s.fetches → s.mem.HoldsInstr s.pc w →
    (w.extractLsb' 0 8 = 0x00#8 ∨ 0x26 ≤ (w.extractLsb' 0 8).toNat) →
    step s = .next (s.faultedWith 1#2 ((w.extractLsb' 0 8).setWidth 32)))

/-- The opcode byte alone selects the instruction; the operand takes no part in decoding (R54). -/
def Obligations.OpcodeByteAloneSelectsTheInstruction : Prop :=
  (∀ w w' : InstrWord, w.extractLsb' 0 8 = w'.extractLsb' 0 8 →
    (∃ i i', decode w = .instr i ∧ decode w' = .instr i' ∧ i.mnemonic = i'.mnemonic) ∨
    (∃ opc, decode w = .invalid opc ∧ decode w' = .invalid opc)) ∧
  (∀ i j : Instr, i.opcode = j.opcode ↔ i.mnemonic = j.mnemonic)

/-- Words written out from the encoding vectors decode to their instructions (96_test_vectors_derived.md 1.1,
30_encoding.md 3). -/
def Obligations.KnownWordsDecode : Prop :=
  decode 0x1234567801#40 = .instr (.loadai 0x12345678#32) ∧
  decode 0x0000006404#40 = .instr (.loadam 0x64#32) ∧
  decode 0x0000000007#40 = .instr (.loadar 0#32) ∧
  decode 0x0000006409#40 = .instr (.stoream 0x64#32) ∧
  decode 0x000000640E#40 = .instr (.addint 0x64#32) ∧
  decode 0x0000006413#40 = .instr (.addfloat 0x64#32) ∧
  decode 0x0000000017#40 = .instr (.cmpint 0#32) ∧
  decode 0x0000003C19#40 = .instr (.jmp 0x3C#32) ∧
  decode 0x0000006420#40 = .instr (.printint 0x64#32) ∧
  decode 0x0000000025#40 = .instr (.hlt 0#32) ∧
  decode 0xDEADBEEF07#40 = .instr (.loadar 0xDEADBEEF#32) ∧
  decode 0x0000000000#40 = .invalid 0x00#8 ∧
  decode 0x0000000026#40 = .invalid 0x26#8

/-- The operand of a class N instruction has no effect (R53). -/
def Obligations.UnusedOperandHasNoEffect : Prop :=
  (∀ (v w : Word) (s : State),
    exec (.loadar v) s = exec (.loadar w) s ∧ exec (.loadbr v) s = exec (.loadbr w) s ∧
    exec (.storear v) s = exec (.storear w) s ∧ exec (.storebr v) s = exec (.storebr w) s ∧
    exec (.cmpint v) s = exec (.cmpint w) s ∧ exec (.cmpfloat v) s = exec (.cmpfloat w) s ∧
    exec (.printrint v) s = exec (.printrint w) s ∧ exec (.printrfloat v) s = exec (.printrfloat w) s ∧
    exec (.hlt v) s = exec (.hlt w) s) ∧
  (∀ i : Instr, i.operandClass = .unused ↔
    i.mnemonic ∈ ["loadar", "loadbr", "storear", "storebr", "cmpint", "cmpfloat", "printrint", "printrfloat", "hlt"])

/-- A step of a running machine runs the instruction whose bytes stand at pc (R141). That step is exec and nothing
around it is the model's choice: the advance of R141 stands inside exec, notes/assumptions/13.md. -/
def Obligations.StepRunsDecodedInstruction : Prop :=
  (∀ (s : State) (w : InstrWord) (i : Instr), s.fetches → s.mem.HoldsInstr s.pc w → decode w = .instr i →
    step s = exec i s) ∧
  (∀ (s : State) (i : Instr), s.AtInstr i → i.wellFormed = true → step s = exec i s)

/-- withFetchWord places an instruction where the next step fetches it (a convention of the model) (R141, R44).
withFetchWord is the model's choice, notes/assumptions/5.md. -/
def Obligations.PlacedInstructionRunsNext : Prop :=
  ∀ (s : State) (i : Instr), s.fetches → s.mem.wf = true →
    step (s.withFetchWord 40 (encode i).toNat) = exec i (s.withFetchWord 40 (encode i).toNat) ∧
    s.withFetchWord 40 (encode i).toNat = { s with mem := (s.withFetchWord 40 (encode i).toNat).mem } ∧
    (s.withFetchWord 40 (encode i).toNat).mem.wf = true ∧
    (s.withFetchWord 40 (encode i).toNat).mem.HoldsInstr s.pc (encode i) ∧
    ∀ x, (x < uint s.pc ∨ uint s.pc + 5 ≤ x) →
      (s.withFetchWord 40 (encode i).toNat).mem.readByte x = s.mem.readByte x

/-- A fetch that does not lie in memory raises MemoryFault(pc) (R144). -/
def Obligations.FetchPastTheEndFaults : Prop :=
  ∀ s : State, s.status = .running → s.mem.size.val < uint s.pc + 5 → step s = .next (s.faultedWith 2#2 s.pc)

/-- STATE makes the transitions of R143 and no others, and a step of a running machine always completes (R143, R182,
R20, R151, 60_exceptions.md 2). That step answers a fault where R143 says no step exists is the model's reading,
DEDUCED in notes/assumptions/6.md. Which instruction raises which cause is the table of 60_exceptions.md 2, the spec's
own inference. -/
def Obligations.StateMachineTransitions : Prop :=
  ∀ s : State,
    (s.status = .halted → step s = .fault .halted) ∧
    (s.status = .faulted → step s = .fault .faulted) ∧
    (s.status = .running → ∃ t, step s = .next t ∧
      (t.status = .halted ↔ ∃ v w, s.fetches ∧ s.mem.HoldsInstr s.pc w ∧ decode w = .instr (.hlt v)) ∧
      (t.status = .running → t.faultCause = s.faultCause ∧ t.faultInfo = s.faultInfo) ∧
      (t.status = .faulted →
        (t.faultCause = 1#2 ∨ t.faultCause = 2#2 ∨ t.faultCause = 3#2) ∧
        (t.faultCause = 1#2 ↔ ∃ w opc, s.fetches ∧ s.mem.HoldsInstr s.pc w ∧ decode w = .invalid opc) ∧
        (t.faultCause = 3#2 → ∃ w d, s.fetches ∧ s.mem.HoldsInstr s.pc w ∧
          (decode w = .instr (.divint d) ∨ decode w = .instr (.modint d))))) ∧
    (s.applyReset.status = .running ∧ s.applyReset.pc = 0#32)

/-- A faulting step changes only STATE, FAULT_CAUSE and FAULT_INFO (R154). -/
def Obligations.FaultingStepChangesOnlyTheRecord : Prop :=
  (∀ s t : State, s.status = .running → step s = .next t → t.status = .faulted →
    t = s.faultedWith t.faultCause t.faultInfo) ∧
  (∀ s : State,
    (∀ opc : Byte, s.raise (.invalidOpcode opc) = s.faultedWith 1#2 (opc.setWidth 32)) ∧
    (∀ addr : Word, s.raise (.memoryFault addr) = s.faultedWith 2#2 addr) ∧
    s.raise .divisionByZero = s.faultedWith 3#2 0#32 ∧
    s.raise .divideOverflow = s.faultedWith 3#2 1#32)

/-- One step raises the first fault in the order fetch, decode, arithmetic, data access (R153). -/
def Obligations.FaultPriority : Prop :=
  ∀ (s : State) (w : InstrWord), s.status = .running → s.mem.HoldsInstr s.pc w →
    if s.mem.size.val < uint s.pc + 5 then step s = .next (s.faultedWith 2#2 s.pc)
    else if w.extractLsb' 0 8 = 0x00#8 ∨ 0x26 ≤ (w.extractLsb' 0 8).toNat then
      step s = .next (s.faultedWith 1#2 ((w.extractLsb' 0 8).setWidth 32))
    else ∀ d : Word, (decode w = .instr (.divint d) ∨ decode w = .instr (.modint d)) →
      if s.b = 0#32 then step s = .next (s.faultedWith 3#2 0#32)
      else if s.a = 0x80000000#32 ∧ s.b = 0xFFFFFFFF#32 then step s = .next (s.faultedWith 3#2 1#32)
      else s.mem.size.val < uint d + 4 → step s = .next (s.faultedWith 2#2 d)

/-- Every step keeps the memory canonical, the flags legal and the fault record in agreement with STATE (R18, R20,
R21, R35, R151). The canonical form is the model's choice, notes/assumptions/2.md. -/
def Obligations.StepKeepsTheInvariant : Prop :=
  ∀ s t : State, s.Inv → step s = .next t → t.Inv

/-- The invariant holds after reset, over every canonical memory (R24, R170). The canonical form is the model's
choice, notes/assumptions/2.md. -/
def Obligations.ResetEstablishesTheInvariant : Prop :=
  State.reset.Inv ∧ (∀ m : Memory, m.wf = true → (State.boot m).Inv) ∧
  (∀ s : State, s.mem.wf = true → s.applyReset.Inv)

/-- OUT only grows, by at most one event a step, only by prints, and nothing reads it (R22, R41, R137). -/
def Obligations.OutputOnlyGrowsAndIsNotRead : Prop :=
  (∀ s t : State, step s = .next t → t.mem.size = s.mem.size ∧
    ∃ es : List Event, es.length ≤ 1 ∧ t.out = s.out ++ es ∧
      ∀ o : List Event, step { s with out := o } = .next { t with out := o ++ es }) ∧
  (∀ (i : Instr) (s t : State), exec i s = .next t → s.status = .running →
    t.out = s.out ∨ (isPrint i = true ∧ t.status = .running ∧ ∃ e, t.out = s.out ++ [e])) ∧
  (∀ (i : Instr) (s t : State), exec i s = .next t → isPrint i = true → s.status = .running → t.status = .running →
    ∃ e, t.out = s.out ++ [e])

/-- Each register is written and read only by the instructions the table of R12 names (10_state.md 1, 30_encoding.md
3). The table is that of R12, whose last paragraph is the spec's own inference from R55. -/
def Obligations.RegistersWrittenAndReadAsTabled : Prop :=
  (∀ (i : Instr) (s t : State) (d : Reg), exec i s = .next t → d ∉ regsWritten i → t.getReg d = s.getReg d) ∧
  (∀ i : Instr, regsWritten i ≠ [] → i.mnemonic ∈
    ["loadai", "loadbi", "loadri", "loadam", "loadbm", "loadrm", "loadar", "loadbr"]) ∧
  (∀ (i : Instr) (s : State) (d : Reg) (v : Word), d ∉ regsRead i →
    ∃ t t', exec i s = .next t ∧ exec i (s.setReg d v) = .next t' ∧
      (t' = t.setReg d v ∨ (d ∈ regsWritten i ∧ t' = t)))

/-- Flags are written only by compares, all four at once, and read only by conditional jumps (R17). -/
def Obligations.FlagsWrittenByComparesReadByJumps : Prop :=
  ∀ (i : Instr) (s : State) (f : Flags),
    if isCompare i = true then exec i (s.setFlags f) = exec i s
    else
      (∀ t, exec i s = .next t → t.flags = s.flags) ∧
      (isConditionalJump i = false → ∃ t, exec i s = .next t ∧ exec i (s.setFlags f) = .next (t.setFlags f))

/-- pc advances by 5 unless the instruction jumps, halts or faults (R14). -/
def Obligations.ProgramCounterRule : Prop :=
  ∀ (i : Instr) (s t : State), s.status = .running → exec i s = .next t →
    if t.status = .running then
      t.pc = (match jumpTarget i s.flags with | some target => target | none => s.pc + 5#32)
    else t.pc = s.pc

/-- pc + 5 does not pass 2^32 where the fetch completes (R4, 10_state.md 2). This is the sentence of R15 that is the
spec's own inference ("[derived: from 47_control.md rule R141 and 00_scope.md rule R4]"). -/
def Obligations.ProgramCounterNeverWraps : Prop :=
  ∀ s : State, s.fetches → uint (s.pc + 5#32) = uint s.pc + 5 ∧ uint (s.pc + 5#32) ≤ s.mem.size.val ∧
    s.mem.size.val ≤ 2 ^ 32 - 1

/-- Reset gives every register of the CORE the value of R24 and leaves MEM alone (R24, 70_reset_and_hazards.md 1).
That reset and launch are the operations applyReset and boot, and no step, is the model's reading, DEDUCED in
notes/assumptions/11.md. -/
def Obligations.ResetRestoresEveryRegister : Prop :=
  ∀ (s : State) (m : Memory),
    s.applyReset = State.mk 0#32 0#32 0#32 0#32 ⟨false, false, false, false⟩ .running 0#2 0#32 s.mem [] ∧
    s.applyReset.flags.bits = 0b0000#4 ∧ State.boot m = State.mk 0#32 0#32 0#32 0#32
      ⟨false, false, false, false⟩ .running 0#2 0#32 m []

/-- Words are little-endian in memory, for data and for fetch alike (R33). -/
def Obligations.LittleEndianMemory : Prop :=
  (∀ (s : State) (a v : Word), s.mem.wf = true → uint a + 4 ≤ s.mem.size.val →
    ∃ t, s.memWrite4 a v = .ok t ∧ t.mem.HoldsWord a v ∧ t.memRead4 a = .ok v ∧
      (uint a + 5 ≤ s.mem.size.val → t.memRead4 (a + 1#32) = .ok (s.mem.readByte (uint a + 4) ++ v.extractLsb' 8 24))) ∧
  (∀ s : State, uint s.pc + 5 ≤ s.mem.size.val → ∃ w, s.fetch = .ok w ∧ s.mem.HoldsInstr s.pc w)

/-- MemRead returns the bytes at the address in bounds, and raises MemoryFault otherwise (R32, R34). -/
def Obligations.MemReadRule : Prop :=
  ∀ (s : State) (addr : Word),
    (if uint addr + 1 ≤ s.mem.size.val then s.memRead1 addr = .ok (s.mem.readByte (uint addr))
      else s.memRead1 addr = .error (.memoryFault addr)) ∧
    (if uint addr + 4 ≤ s.mem.size.val then ∃ v, s.memRead4 addr = .ok v ∧ s.mem.HoldsWord addr v
      else s.memRead4 addr = .error (.memoryFault addr)) ∧
    (if uint addr + 5 ≤ s.mem.size.val then ∃ w, s.memRead5 addr = .ok w ∧ s.mem.HoldsInstr addr w
      else s.memRead5 addr = .error (.memoryFault addr))

/-- MemWrite writes exactly the bytes it names, or raises MemoryFault and writes none (R35, R38). -/
def Obligations.MemWriteRule : Prop :=
  ∀ (s : State) (addr v : Word) (b : Byte), s.mem.wf = true →
    (if uint addr + 1 ≤ s.mem.size.val then
        ∃ t, s.memWrite1 addr b = .ok t ∧ t = { s with mem := t.mem } ∧ t.mem.size = s.mem.size ∧ t.mem.wf = true ∧
          t.mem.readByte (uint addr) = b ∧ ∀ x, x ≠ uint addr → t.mem.readByte x = s.mem.readByte x
      else s.memWrite1 addr b = .error (.memoryFault addr)) ∧
    (if uint addr + 4 ≤ s.mem.size.val then
        ∃ t, s.memWrite4 addr v = .ok t ∧ t = { s with mem := t.mem } ∧ t.mem.size = s.mem.size ∧ t.mem.wf = true ∧
          t.mem.HoldsWord addr v ∧
          ∀ x, (x < uint addr ∨ uint addr + 4 ≤ x) → t.mem.readByte x = s.mem.readByte x
      else s.memWrite4 addr v = .error (.memoryFault addr))

/-- A store is seen by the very next fetch, also where it changes code (R43, R44). R44 is the spec's own inference
from R43 and R141. -/
def Obligations.StoreIsSeenByTheNextFetch : Prop :=
  ∀ (s t : State) (addr v : Word), StoresOnly s t addr v → uint t.pc + 5 ≤ t.mem.size.val →
    ∃ w, t.fetch = .ok w ∧ ∀ k, k < 5 → w.extractLsb' (8 * k) 8 =
      if uint addr ≤ uint t.pc + k ∧ uint t.pc + k < uint addr + 4 then
        v.extractLsb' (8 * (uint t.pc + k - uint addr)) 8
      else s.mem.readByte (uint t.pc + k)

/-- A load immediate followed by a store direct leaves the literal in memory (R70, R71, R72, R80, R81, R82, 40_load.md
4). This is R78, whose case X = R is the spec's own inference ("[derived: from rule R72 and 41_store.md rule R82]").
-/
def Obligations.LoadThenStoreRoundTrip : Prop :=
  ∀ (s : State) (literal addr : Word) (load store : Word → Instr),
    (load, store) ∈ [(Instr.loadai, Instr.stoream), (.loadbi, .storebm), (.loadri, .storerm)] →
    s.mem.wf = true → s.AtInstr (load literal) → uint s.pc + 10 ≤ s.mem.size.val →
    s.mem.HoldsInstr (s.pc + 5#32) (encode (store addr)) → uint addr + 4 ≤ s.mem.size.val →
    ∃ t u, step s = .next t ∧ step t = .next u ∧ u.status = .running ∧ u.mem.HoldsWord addr literal

/-- Two canonical memories of the same size that read alike are equal (the model's representation) (20_memory.md 1,
R21). The representation is the model's choice, notes/assumptions/2.md. -/
def Obligations.CanonicalMemoriesAreDeterminedByTheirBytes : Prop :=
  ∀ m m' : Memory, m.wf = true → m'.wf = true → m.size = m'.size →
    (∀ x, x < m.size.val → m.readByte x = m'.readByte x) → m = m'

/-- loadai, loadbi and loadri copy the operand into the register and do nothing else but advance (R70, R71, R72). -/
def Obligations.LoadImmediateCopiesTheOperand : Prop :=
  ∀ (v : Word) (s : State),
    (encodeBytes (.loadai v) = opcodeThenOperand 0x01#8 v ∧
      exec (.loadai v) s = .next { s with a := v, pc := s.pc + 5#32 }) ∧
    (encodeBytes (.loadbi v) = opcodeThenOperand 0x02#8 v ∧
      exec (.loadbi v) s = .next { s with b := v, pc := s.pc + 5#32 }) ∧
    (encodeBytes (.loadri v) = opcodeThenOperand 0x03#8 v ∧
      exec (.loadri v) s = .next { s with r := v, pc := s.pc + 5#32 })

/-- loadam, loadbm and loadrm load the word at the operand address, or fault without writing the register (R73, R74,
R75). -/
def Obligations.LoadDirectReadsTheWordAtTheOperand : Prop :=
  (∀ (a : Word) (s : State),
    (encodeBytes (.loadam a) = opcodeThenOperand 0x04#8 a ∧ LoadsOrFaults .a (.loadam a) s a) ∧
    (encodeBytes (.loadbm a) = opcodeThenOperand 0x05#8 a ∧ LoadsOrFaults .b (.loadbm a) s a) ∧
    (encodeBytes (.loadrm a) = opcodeThenOperand 0x06#8 a ∧ LoadsOrFaults .r (.loadrm a) s a)) ∧
  (∀ s : State, s.AtInstr (.loadam s.pc) → ∃ t, step s = .next t ∧ t.a = s.pc.extractLsb' 0 24 ++ 0x04#8)

/-- loadar and loadbr load the word at x[R], or fault without writing the register (R76, R77). -/
def Obligations.LoadIndirectReadsTheWordAtR : Prop :=
  ∀ (v : Word) (s : State),
    (encodeBytes (.loadar v) = opcodeThenOperand 0x07#8 v ∧ LoadsOrFaults .a (.loadar v) s s.r) ∧
    (encodeBytes (.loadbr v) = opcodeThenOperand 0x08#8 v ∧ LoadsOrFaults .b (.loadbr v) s s.r)

/-- stoream, storebm and storerm write the register at the operand address and nothing else (R80, R81, R82). -/
def Obligations.StoreDirectWritesTheRegisterAtTheOperand : Prop :=
  ∀ (a : Word) (s : State), s.mem.wf = true →
    (encodeBytes (.stoream a) = opcodeThenOperand 0x09#8 a ∧ StoresOrFaults (.stoream a) s a s.a) ∧
    (encodeBytes (.storebm a) = opcodeThenOperand 0x0A#8 a ∧ StoresOrFaults (.storebm a) s a s.b) ∧
    (encodeBytes (.storerm a) = opcodeThenOperand 0x0B#8 a ∧ StoresOrFaults (.storerm a) s a s.r)

/-- storear and storebr write the register at x[R] and nothing else (R83, R84). -/
def Obligations.StoreIndirectWritesTheRegisterAtR : Prop :=
  (∀ (v : Word) (s : State), s.mem.wf = true →
    (encodeBytes (.storear v) = opcodeThenOperand 0x0C#8 v ∧ StoresOrFaults (.storear v) s s.r s.a) ∧
    (encodeBytes (.storebr v) = opcodeThenOperand 0x0D#8 v ∧ StoresOrFaults (.storebr v) s s.r s.b)) ∧
  (∀ (v : Word) (s : State), s.r = 0xFFFFFFFE#32 →
    exec (.storear v) s = .next (s.faultedWith 2#2 0xFFFFFFFE#32))

/-- addint stores the sum of A and B modulo 2^32 at the operand address and nothing else (R91). -/
def Obligations.AddintStoresTheWrappedSum : Prop :=
  ∀ (d : Word) (s : State), s.mem.wf = true → encodeBytes (.addint d) = opcodeThenOperand 0x0E#8 d ∧
    ∃ r : Word, StoresOrFaults (.addint d) s d r ∧ (r.toNat : ℤ) = (s.a.toInt + s.b.toInt) % 2 ^ 32 ∧
      (r.toNat : ℤ) = ((s.a.toNat : ℤ) + (s.b.toNat : ℤ)) % 2 ^ 32

/-- subint stores the difference A minus B of A and B modulo 2^32 at the operand address and nothing else (R92). -/
def Obligations.SubintStoresTheWrappedDifference : Prop :=
  ∀ (d : Word) (s : State), s.mem.wf = true → encodeBytes (.subint d) = opcodeThenOperand 0x0F#8 d ∧
    ∃ r : Word, StoresOrFaults (.subint d) s d r ∧ (r.toNat : ℤ) = (s.a.toInt - s.b.toInt) % 2 ^ 32 ∧
      (r.toNat : ℤ) = ((s.a.toNat : ℤ) - (s.b.toNat : ℤ)) % 2 ^ 32

/-- multint stores the product of A and B modulo 2^32 at the operand address and nothing else (R93). -/
def Obligations.MultintStoresTheLowWordOfTheProduct : Prop :=
  ∀ (d : Word) (s : State), s.mem.wf = true → encodeBytes (.multint d) = opcodeThenOperand 0x10#8 d ∧
    ∃ r : Word, StoresOrFaults (.multint d) s d r ∧ (r.toNat : ℤ) = (s.a.toInt * s.b.toInt) % 2 ^ 32 ∧
      (r.toNat : ℤ) = ((s.a.toNat : ℤ) * (s.b.toNat : ℤ)) % 2 ^ 32

/-- divint stores the exact quotient rounded toward zero, and faults on a zero divisor and on INT32_MIN by -1 (R94).
-/
def Obligations.DivintStoresTheTruncatedQuotientOrFaults : Prop :=
  ∀ (d : Word) (s : State), s.mem.wf = true → encodeBytes (.divint d) = opcodeThenOperand 0x11#8 d ∧
    (if s.b = 0#32 then exec (.divint d) s = .next (s.faultedWith 3#2 0#32)
    else if s.a = 0x80000000#32 ∧ s.b = 0xFFFFFFFF#32 then exec (.divint d) s = .next (s.faultedWith 3#2 1#32)
    else ∃ r : Word, r.toInt = s.a.toInt.tdiv s.b.toInt ∧ StoresOrFaults (.divint d) s d r)

/-- modint stores the remainder a - b * trunc(a / b), and faults on a zero divisor and on INT32_MIN by -1 (R95). -/
def Obligations.ModintStoresTheRemainderOrFaults : Prop :=
  ∀ (d : Word) (s : State), s.mem.wf = true → encodeBytes (.modint d) = opcodeThenOperand 0x12#8 d ∧
    (if s.b = 0#32 then exec (.modint d) s = .next (s.faultedWith 3#2 0#32)
    else if s.a = 0x80000000#32 ∧ s.b = 0xFFFFFFFF#32 then exec (.modint d) s = .next (s.faultedWith 3#2 1#32)
    else ∃ r : Word, r.toInt = s.a.toInt - s.b.toInt * (s.a.toInt.tdiv s.b.toInt) ∧ StoresOrFaults (.modint d) s d r)

/-- Quotient and remainder recompose the dividend, and have the signs and bounds of R95 and R96 (R94, R95, R96). -/
def Obligations.DivisionLaws : Prop :=
  ∀ x y : Word, divideFault x y = none → ∃ q m : Word, divInt x y = .ok q ∧ modInt x y = .ok m ∧
    int32 (y.toInt * q.toInt + m.toInt) = x ∧ m.toInt.natAbs < y.toInt.natAbs ∧
    (m = 0#32 ∨ (m.toInt < 0 ↔ x.toInt < 0)) ∧
    (q.toInt < 0 ↔ ((x.toInt < 0 ↔ ¬ y.toInt < 0) ∧ y.toInt.natAbs ≤ x.toInt.natAbs))

/-- fval reads the binary32 format, and fbits is its inverse on data that are not NaN (R100). -/
def Obligations.FloatFormatIsBinary32 : Prop :=
  (∀ v : Word,
    (let s := v.getLsbD 31
     let e := (v.extractLsb' 23 8).toNat
     let f := (v.extractLsb' 0 23).toNat
     (e = 0 → ∃ k, fval v = some (.finite s k) ∧ (f = 0 ↔ k = 0) ∧
       unitsValue s k = (-1) ^ s.toNat * (f : ℚ) * 2 ^ (-149 : ℤ)) ∧
     (1 ≤ e → e ≤ 254 → ∃ k, fval v = some (.finite s k) ∧
       unitsValue s k = (-1) ^ s.toNat * ((2 : ℚ) ^ 23 + f) * 2 ^ ((e : ℤ) - 150)) ∧
     (e = 255 → f = 0 → fval v = some (.infinity s)) ∧
     (e = 255 → f ≠ 0 → fval v = none)) ∧
    (∀ p, fval v = some p → fbits p = v ∧ ∀ w, fval w = some p → w = v)) ∧
  fval 0x3F800000#32 = some (.finite false (2 ^ 149)) ∧ fval 0xBF800000#32 = some (.finite true (2 ^ 149)) ∧
  fval 0x40000000#32 = some (.finite false (2 ^ 150)) ∧ fval 0x3F000000#32 = some (.finite false (2 ^ 148)) ∧
  fval 0x7F800000#32 = some (.infinity false) ∧ fval 0xFF800000#32 = some (.infinity true) ∧
  fval 0x7F7FFFFF#32 = some (.finite false ((2 ^ 24 - 1) * 2 ^ 253)) ∧
  fval 0x00800000#32 = some (.finite false (2 ^ 23)) ∧ fval 0x00000001#32 = some (.finite false 1) ∧
  fval 0x7FC00000#32 = none

/-- round gives the nearest binary32 datum, ties to even, infinity from 2^128 - 2^103 up, gradual underflow (R101). -/
def Obligations.RoundingIsToNearestTiesToEven : Prop :=
  ∀ (neg : Bool) (n d : ℕ), 0 < n → 0 < d →
    IsRounded neg n d (fbits (round neg n d)) ∧ (2 * n ≤ d → fbits (round neg n d) = zeroBits neg)

/-- addfloat stores at the operand address the result the table of R103 gives, and nothing else (R103). -/
def Obligations.AddfloatStoresTheRoundedSum : Prop :=
  ∀ (d : Word) (s : State), s.mem.wf = true →
    encodeBytes (.addfloat d) = opcodeThenOperand 0x13#8 d ∧ StoresByRule AddFloatRule (.addfloat d) s d

/-- subfloat stores at the operand address the result the table of R104 gives, and nothing else (R104). -/
def Obligations.SubfloatStoresTheRoundedDifference : Prop :=
  (∀ (d : Word) (s : State), s.mem.wf = true →
    encodeBytes (.subfloat d) = opcodeThenOperand 0x14#8 d ∧ StoresByRule SubFloatRule (.subfloat d) s d) ∧
  (∀ x y : Word, fval y ≠ none →
    (fval (subFloat x y) = none ↔ fval (addFloat x (y ^^^ 0x80000000#32)) = none) ∧
    (fval (subFloat x y) ≠ none → subFloat x y = addFloat x (y ^^^ 0x80000000#32)))

/-- multfloat stores at the operand address the result the table of R105 gives, and nothing else (R105). -/
def Obligations.MultfloatStoresTheRoundedProduct : Prop :=
  ∀ (d : Word) (s : State), s.mem.wf = true →
    encodeBytes (.multfloat d) = opcodeThenOperand 0x15#8 d ∧ StoresByRule MultFloatRule (.multfloat d) s d

/-- divfloat stores at the operand address the result the table of R106 gives, and nothing else (R106). -/
def Obligations.DivfloatStoresTheRoundedQuotient : Prop :=
  ∀ (d : Word) (s : State), s.mem.wf = true →
    encodeBytes (.divfloat d) = opcodeThenOperand 0x16#8 d ∧ StoresByRule DivFloatRule (.divfloat d) s d

/-- NAN_GEN is always a NaN pattern, and a NaN operand makes the result a NaN (R102, R107). The patterns are a free
value, notes/assumptions/3.md. -/
def Obligations.NaNOperandsGiveNaNResults : Prop :=
  (∀ (op : FloatOp) (x y : Word), fval (nanGen op x y) = none) ∧
  (∀ x y : Word, (fval x = none ∨ fval y = none) →
    addFloat x y = nanGen .add x y ∧ subFloat x y = nanGen .sub x y ∧
    mulFloat x y = nanGen .mul x y ∧ divFloat x y = nanGen .div x y)

/-- cmpint writes all four flags from the signed order of A and B and does nothing else but advance (R111). -/
def Obligations.CmpintWritesTheSignedOrder : Prop :=
  ∀ (v : Word) (s : State), encodeBytes (.cmpint v) = opcodeThenOperand 0x17#8 v ∧
    exec (.cmpint v) s = .next { s with
      flags := ⟨decide (s.b.toInt < s.a.toInt), decide (s.a.toInt < s.b.toInt), decide (s.a.toInt = s.b.toInt),
        decide (s.a.toInt ≠ s.b.toInt)⟩,
      pc := s.pc + 5#32 }

/-- cmpfloat writes all four flags from the IEEE order, NE only when unordered, and does nothing else but advance
(R112). -/
def Obligations.CmpfloatWritesTheFloatOrder : Prop :=
  ∀ (v : Word) (s : State), encodeBytes (.cmpfloat v) = opcodeThenOperand 0x18#8 v ∧
    ∃ f : Flags, exec (.cmpfloat v) s = .next { s with flags := f, pc := s.pc + 5#32 } ∧
      (if fval s.a = none ∨ fval s.b = none then f = ⟨false, false, false, true⟩
      else (f.gt = true ↔ FloatLess s.b s.a) ∧ (f.lt = true ↔ FloatLess s.a s.b) ∧
        (f.eq = true ↔ FloatSame s.a s.b) ∧ (f.ne = true ↔ ¬ FloatSame s.a s.b))

/-- After a compare FLAGS is one of four values, and each value (and 0000) takes the jumps of the table (R113). -/
def Obligations.FlagOutcomesAndTheJumpsTheyTake : Prop :=
  (∀ (v : Word) (s t : State), exec (.cmpint v) s = .next t →
    t.flags.bits ∈ [0b1001#4, 0b1010#4, 0b0100#4] ∧
    (s.b.toInt < s.a.toInt → t.flags.bits = 0b1001#4) ∧ (s.a.toInt < s.b.toInt → t.flags.bits = 0b1010#4) ∧
    (s.a.toInt = s.b.toInt → t.flags.bits = 0b0100#4)) ∧
  (∀ (v : Word) (s t : State), exec (.cmpfloat v) s = .next t →
    t.flags.bits ∈ [0b1001#4, 0b1010#4, 0b0100#4, 0b1000#4] ∧
    (FloatLess s.b s.a → t.flags.bits = 0b1001#4) ∧ (FloatLess s.a s.b → t.flags.bits = 0b1010#4) ∧
    (FloatSame s.a s.b → t.flags.bits = 0b0100#4) ∧
    (fval s.a = none ∨ fval s.b = none → t.flags.bits = 0b1000#4)) ∧
  (∀ f : Flags, f.bits ∈ [0b1001#4, 0b1010#4, 0b0100#4, 0b1000#4] →
    f.eq ≠ f.ne ∧ ¬ (f.gt = true ∧ f.lt = true) ∧ (f.eq = true → f.gt = false ∧ f.lt = false)) ∧
  (∀ (row : BitVec 4 × Bool × Bool × Bool × Bool × Bool × Bool) (s : State) (t : Word),
    row ∈ [(0b1001#4, false, true, false, false, true, true), (0b1010#4, false, true, true, true, false, false),
      (0b0100#4, true, false, false, true, false, true), (0b1000#4, false, true, false, false, false, false),
      (0b0000#4, false, false, false, false, false, false)] →
    s.flags.bits = row.1 →
    exec (.jeq t) s = .next { s with pc := if row.2.1 then t else s.pc + 5#32 } ∧
    exec (.jne t) s = .next { s with pc := if row.2.2.1 then t else s.pc + 5#32 } ∧
    exec (.jlt t) s = .next { s with pc := if row.2.2.2.1 then t else s.pc + 5#32 } ∧
    exec (.jle t) s = .next { s with pc := if row.2.2.2.2.1 then t else s.pc + 5#32 } ∧
    exec (.jgt t) s = .next { s with pc := if row.2.2.2.2.2.1 then t else s.pc + 5#32 } ∧
    exec (.jge t) s = .next { s with pc := if row.2.2.2.2.2.2 then t else s.pc + 5#32 }) ∧
  (∀ s : State, s.applyReset.flags.bits = 0b0000#4)

/-- Four instructions that load, compare and branch jump exactly when the order says so (R114). -/
def Obligations.CompareAndBranchProperties : Prop :=
  ∀ (s : State) (a b v target : Word), s.status = .running → uint s.pc + 20 ≤ s.mem.size.val →
    s.mem.HoldsInstr s.pc (encode (.loadai a)) → s.mem.HoldsInstr (s.pc + 5#32) (encode (.loadbi b)) →
    (s.mem.HoldsInstr (s.pc + 10#32) (encode (.cmpint v)) → s.mem.HoldsInstr (s.pc + 15#32) (encode (.jge target)) →
      ∃ t, Sys2Proof.core.run 4 s = .next t ∧ t.status = .running ∧
        (b.toInt ≤ a.toInt → t.pc = target) ∧ (¬ b.toInt ≤ a.toInt → t.pc = s.pc + 20#32)) ∧
    (s.mem.HoldsInstr (s.pc + 10#32) (encode (.cmpfloat v)) → s.mem.HoldsInstr (s.pc + 15#32) (encode (.jlt target)) →
      ∃ t, Sys2Proof.core.run 4 s = .next t ∧ t.status = .running ∧
        (FloatLess a b → t.pc = target) ∧ (¬ FloatLess a b → t.pc = s.pc + 20#32))

/-- jmp writes its operand to pc and does nothing else (R120). -/
def Obligations.JmpGoesToItsOperand : Prop :=
  ∀ (t : Word) (s : State), encodeBytes (.jmp t) = opcodeThenOperand 0x19#8 t ∧
    exec (.jmp t) s = .next { s with pc := t } ∧ exec (.jmp s.pc) s = .next s ∧
    exec (.jmp (s.pc + 5#32)) s = .next s.advance

/-- Each conditional jump goes to its operand exactly when its flags are set, and else advances (R121, R122, R123,
R124, R125, R126). -/
def Obligations.ConditionalJumpsTestTheirFlags : Prop :=
  ∀ (t : Word) (s : State),
    (encodeBytes (.jeq t) = opcodeThenOperand 0x1A#8 t ∧
      exec (.jeq t) s = .next { s with pc := if s.flags.eq = true then t else s.pc + 5#32 }) ∧
    (encodeBytes (.jne t) = opcodeThenOperand 0x1B#8 t ∧
      exec (.jne t) s = .next { s with pc := if s.flags.ne = true then t else s.pc + 5#32 }) ∧
    (encodeBytes (.jlt t) = opcodeThenOperand 0x1C#8 t ∧
      exec (.jlt t) s = .next { s with pc := if s.flags.lt = true then t else s.pc + 5#32 }) ∧
    (encodeBytes (.jle t) = opcodeThenOperand 0x1D#8 t ∧
      exec (.jle t) s = .next { s with pc := if s.flags.lt = true ∨ s.flags.eq = true then t else s.pc + 5#32 }) ∧
    (encodeBytes (.jgt t) = opcodeThenOperand 0x1E#8 t ∧
      exec (.jgt t) s = .next { s with pc := if s.flags.gt = true then t else s.pc + 5#32 }) ∧
    (encodeBytes (.jge t) = opcodeThenOperand 0x1F#8 t ∧
      exec (.jge t) s = .next { s with pc := if s.flags.gt = true ∨ s.flags.eq = true then t else s.pc + 5#32 })

/-- A jump out of memory succeeds, and the next step raises MemoryFault at the target (R127, R15). -/
def Obligations.JumpTargetsAreCheckedAtTheNextFetch : Prop :=
  ∀ (i : Instr) (s : State) (target : Word), s.status = .running → jumpTarget i s.flags = some target →
    s.mem.size.val < uint target + 5 →
    ∃ t, exec i s = .next t ∧ t = { s with pc := target } ∧ step t = .next (t.faultedWith 2#2 target)

/-- printint, printchar and printfloat emit the word at the operand address (its low byte for printchar) (R131, R132,
R133). -/
def Obligations.PrintDirectEmitsTheWordAtTheOperand : Prop :=
  ∀ (a : Word) (s : State),
    (encodeBytes (.printint a) = opcodeThenOperand 0x20#8 a ∧ PrintsOrFaults .int (.printint a) s a) ∧
    (encodeBytes (.printchar a) = opcodeThenOperand 0x21#8 a ∧
      PrintsOrFaults (fun v => .char (v.extractLsb' 0 8)) (.printchar a) s a) ∧
    (encodeBytes (.printfloat a) = opcodeThenOperand 0x22#8 a ∧ PrintsOrFaults .float (.printfloat a) s a)

/-- printrint and printrfloat emit the word at x[R] (R134, R135). -/
def Obligations.PrintIndirectEmitsTheWordAtR : Prop :=
  ∀ (v : Word) (s : State),
    (encodeBytes (.printrint v) = opcodeThenOperand 0x23#8 v ∧ PrintsOrFaults .int (.printrint v) s s.r) ∧
    (encodeBytes (.printrfloat v) = opcodeThenOperand 0x24#8 v ∧ PrintsOrFaults .float (.printrfloat v) s s.r)

/-- TEXT(OUT) concatenates the renderings, and integers render as minimal signed decimal numerals (R136). -/
def Obligations.TextOfTheOutputStream : Prop :=
  textOf [] = [] ∧
  (∀ (e : Event) (o : List Event), textOf (e :: o) = e.text ++ textOf o) ∧
  (∀ b : Byte, (Event.char b).text = [b]) ∧
  (∀ v : Word, (Event.float v).text = Config.floatFormat v) ∧
  (∀ v : Word, ∃ ds : List ℕ, (∀ d ∈ ds, d < 10) ∧ ds ≠ [] ∧ (ds.head? = some 0 → ds = [0]) ∧
    ds.foldl (fun acc d => 10 * acc + d) 0 = v.toInt.natAbs ∧
    (Event.int v).text = (if v.toInt < 0 then [0x2D#8] else []) ++ ds.map (fun d => BitVec.ofNat 8 (0x30 + d)))

/-- hlt sets STATE to Halted and changes nothing else, pc included (R143, 47_control.md 1). This is R140, whose last
paragraph is the spec's own inference. That step answers the fault halted afterwards is the model's reading of R143,
DEDUCED in notes/assumptions/6.md. -/
def Obligations.HltHaltsAndLeavesEverythingElse : Prop :=
  ∀ (v : Word) (s : State), encodeBytes (.hlt v) = opcodeThenOperand 0x25#8 v ∧
    exec (.hlt v) s = .next { s with status := .halted } ∧ step { s with status := .halted } = .fault .halted

/-- The one data transaction of an instruction decides its memory fault and every byte of memory it changes (R37, R38,
R45). The table of R37 is the spec's own inference from the instruction rules. -/
def Obligations.DataTransactionGovernsMemory : Prop :=
  ∀ (i : Instr) (s : State), s.mem.wf = true → ∃ t, exec i s = .next t ∧
    (match dataTransaction i s with
      | none => t.mem = s.mem
      | some (.read4 addr) => t.mem = s.mem ∧ (s.mem.size.val < uint addr + 4 → t = s.faultedWith 2#2 addr)
      | some (.write4 addr v) =>
        (uint addr + 4 ≤ s.mem.size.val → StoresOnly s t addr v) ∧
        (s.mem.size.val < uint addr + 4 → t = s.faultedWith 2#2 addr)
      | some (.read1 _) => False
      | some (.read5 _) => False
      | some (.write1 _ _) => False)

/-- A run that ends under some fuel ends in the same state under more, in a terminal state (R143, R145, R146). runFor
is the model's reading of "a model that executes under fuel" (R145), and rests on notes/assumptions/6.md. -/
def Obligations.FinishedRunsAreStable : Prop :=
  (∀ (k j : ℕ) (s t : State), runFor k s = .finished t → t.terminal ∧ runFor (k + j) s = .finished t) ∧
  (∀ (k : ℕ) (s : State), s.terminal → runFor k s = .finished s) ∧
  (∀ (k : ℕ) (s t : State), runFor k s = .notFinished t → t.status = .running)

/-- A transaction of the port completes with its data, or is a bounds fault that changes nothing (R32, R34, R35, R38,
R45). transact is the model's form of the port, notes/assumptions/16.md. -/
def Obligations.PortTransactionsCompleteOrFault : Prop :=
  ∀ (s : State) (t : Transaction), s.mem.wf = true → t.width ∈ [1, 4, 5] ∧
    if uint t.addr + t.width ≤ s.mem.size.val then
      match t with
      | .read1 addr => s.transact t = (.data1 (s.mem.readByte (uint addr)), s)
      | .read4 addr => ∃ v, s.mem.HoldsWord addr v ∧ s.transact t = (.data4 v, s)
      | .read5 addr => ∃ w, s.mem.HoldsInstr addr w ∧ s.transact t = (.data5 w, s)
      | .write1 addr b => ∃ u, s.transact t = (.written, u) ∧ u = { s with mem := u.mem } ∧
          u.mem.size = s.mem.size ∧ u.mem.wf = true ∧ u.mem.readByte (uint addr) = b ∧
          ∀ x, x ≠ uint addr → u.mem.readByte x = s.mem.readByte x
      | .write4 addr v => ∃ u, s.transact t = (.written, u) ∧ u = { s with mem := u.mem } ∧
          u.mem.size = s.mem.size ∧ u.mem.wf = true ∧ u.mem.HoldsWord addr v ∧
          ∀ x, (x < uint addr ∨ uint addr + 4 ≤ x) → u.mem.readByte x = s.mem.readByte x
    else s.transact t = (.boundsFault, s)

/-- A step issues its fetch, then at most one data access once the fetch completed; they decide its memory and its
fault (R38, R45, R141, R143, 20_memory.md 6). exchanges is the model's view of the port, notes/assumptions/16.md; the
table of R37 is the spec's own inference. -/
def Obligations.StepIsItsTransactionsOneAtATime : Prop :=
  ∀ s : State,
    (s.status ≠ .running → s.exchanges = []) ∧
    (s.status = .running →
      (∃ o rest, s.exchanges = (.read5 s.pc, o) :: rest ∧ o = (s.transact (.read5 s.pc)).1 ∧ rest.length ≤ 1 ∧
        ∀ e ∈ rest, e.2 = (s.transact e.1).1 ∧ e.1.width = 4 ∧
          ∃ w i, o = .data5 w ∧ decode w = .instr i ∧ dataTransaction i s = some e.1) ∧
      ∃ t, step s = .next t ∧
        (∀ e ∈ s.exchanges, e.2 = .boundsFault → t = s.faultedWith 2#2 e.1.addr) ∧
        (t.status = .faulted → t.faultCause = 2#2 →
          ∃ e ∈ s.exchanges, e.2 = .boundsFault ∧ t.faultInfo = e.1.addr) ∧
        t.mem = (s.exchanges.foldl (fun u e => (u.transact e.1).2) s).mem)
end

