-- ==== Sys2Proof/Laws/Memory.lean ====
section
/-! SUPPORT. The laws of memory: canonical form is kept by every memory operation, a read after a write, and the bytes of
words. -/

namespace Sys2Proof.Machine

/-! ### Cell lists -/

/-- A canonical list that starts at `lo` reads as unlisted below `lo`. -/
theorem readCells_below {n lo x : Nat} {cs : List Host.Cell} (h : wfCells n lo cs = true) (hx : x < lo) :
    readCells cs x = Memory.unlistedByte := by
  cases cs with
  | nil => rfl
  | cons c cs =>
    simp only [wfCells, Bool.and_eq_true, decide_eq_true_eq] at h
    have : x < c.1 := by omega
    simp [readCells, this]

/-- Canonical form from a lower starting point. -/
theorem wfCells_weaken {n lo lo' : Nat} {cs : List Host.Cell} (h : wfCells n lo cs = true) (hl : lo' ≤ lo) :
    wfCells n lo' cs = true := by
  cases cs with
  | nil => rfl
  | cons c cs =>
    simp only [wfCells, Bool.and_eq_true, decide_eq_true_eq] at h ⊢
    obtain ⟨⟨⟨h1, h2⟩, h3⟩, h4⟩ := h
    exact ⟨⟨⟨by omega, h2⟩, h3⟩, h4⟩

/-- Putting a byte in front keeps canonical form. -/
theorem consCell_wf {n lo x : Nat} {b : Byte} {cs : List Host.Cell} (h : wfCells n (x + 1) cs = true) (hl : lo ≤ x)
    (hx : x < n) : wfCells n lo (consCell x b cs) = true := by
  unfold consCell
  split
  · exact wfCells_weaken h (by omega)
  · rename_i hb
    simp [wfCells, hl, hx, h, hb]

/-- What a byte put in front reads as. -/
theorem readCells_consCell {n x y : Nat} {b : Byte} {cs : List Host.Cell} (h : wfCells n (x + 1) cs = true) :
    readCells (consCell x b cs) y = if y = x then b else readCells cs y := by
  unfold consCell
  split
  · rename_i hb
    split
    · rename_i hy
      rw [readCells_below h (by omega), hb]
    · rfl
  · simp only [readCells]
    split
    · rename_i hlt
      rw [if_neg (by omega), readCells_below h (by omega)]
    · rfl

/-- A write inside `[lo, n)` keeps canonical form. -/
theorem writeCells_wf {n x : Nat} {b : Byte} {cs : List Host.Cell} {lo : Nat} (h : wfCells n lo cs = true) (hl : lo ≤ x)
    (hx : x < n) : wfCells n lo (writeCells cs x b) = true := by
  induction cs generalizing lo with
  | nil => exact consCell_wf rfl hl hx
  | cons c cs ih =>
    have h' := h
    simp only [wfCells, Bool.and_eq_true, decide_eq_true_eq] at h
    obtain ⟨⟨⟨h1, h2⟩, h3⟩, h4⟩ := h
    unfold writeCells
    split
    · rename_i hlt
      refine consCell_wf ?_ hl hx
      simp only [wfCells, Bool.and_eq_true, decide_eq_true_eq]
      exact ⟨⟨⟨by omega, h2⟩, h3⟩, h4⟩
    · split
      · rename_i heq
        exact consCell_wf (by rw [heq]; exact h4) hl hx
      · simp only [wfCells, Bool.and_eq_true, decide_eq_true_eq]
        exact ⟨⟨⟨h1, h2⟩, h3⟩, ih h4 (by omega)⟩

/-- A read after a write: the byte written at its own address, the old byte elsewhere. -/
theorem readCells_writeCells {n x y : Nat} {b : Byte} {cs : List Host.Cell} {lo : Nat} (h : wfCells n lo cs = true) :
    readCells (writeCells cs x b) y = if y = x then b else readCells cs y := by
  induction cs generalizing lo with
  | nil => exact readCells_consCell (n := n) rfl
  | cons c cs ih =>
    simp only [wfCells, Bool.and_eq_true, decide_eq_true_eq] at h
    obtain ⟨⟨⟨h1, h2⟩, h3⟩, h4⟩ := h
    unfold writeCells
    split
    · rename_i hlt
      refine readCells_consCell (n := n) ?_
      simp only [wfCells, Bool.and_eq_true, decide_eq_true_eq]
      exact ⟨⟨⟨by omega, h2⟩, h3⟩, h4⟩
    · split
      · rename_i heq
        rw [readCells_consCell (n := n) (by rw [heq]; exact h4)]
        split
        · rfl
        · rename_i hne
          simp only [readCells]
          split
          · rw [readCells_below h4 (by omega)]
          · rw [if_neg (by omega)]
      · simp only [readCells]
        split
        · rw [if_neg (by omega)]
        · split
          · rw [if_neg (by omega)]
          · exact ih h4

/-! ### Memories -/

@[simp] theorem Memory.writeByte_size (m : Memory) (x : Nat) (b : Byte) : (m.writeByte x b).size = m.size := rfl

@[simp] theorem Memory.writeBytes_size (m : Memory) (x : Nat) (bs : List Byte) : (m.writeBytes x bs).size = m.size := by
  induction bs generalizing m x with
  | nil => rfl
  | cons b bs ih => simp [Memory.writeBytes, ih]

/-- A byte write in bounds keeps the canonical form. -/
theorem Memory.writeByte_wf {m : Memory} {x : Nat} {b : Byte} (h : m.wf = true) (hx : x < m.size.val) :
    (m.writeByte x b).wf = true := writeCells_wf h (Nat.zero_le x) hx

/-- A write of consecutive bytes in bounds keeps the canonical form. -/
theorem Memory.writeBytes_wf {m : Memory} {x : Nat} {bs : List Byte} (h : m.wf = true)
    (hx : x + bs.length ≤ m.size.val) : (m.writeBytes x bs).wf = true := by
  induction bs generalizing m x with
  | nil => exact h
  | cons b bs ih =>
    simp only [List.length_cons] at hx
    refine ih (Memory.writeByte_wf h (by omega)) ?_
    simp only [Memory.writeByte_size]
    omega

/-- A read after a byte write. -/
theorem Memory.readByte_writeByte {m : Memory} {x y : Nat} {b : Byte} (h : m.wf = true) :
    (m.writeByte x b).readByte y = if y = x then b else m.readByte y := readCells_writeCells h

/-- A read outside the bytes written is unchanged. -/
theorem Memory.readByte_writeBytes_outside {m : Memory} {x y : Nat} {bs : List Byte} (h : m.wf = true)
    (hx : x + bs.length ≤ m.size.val) (hy : y < x ∨ x + bs.length ≤ y) :
    (m.writeBytes x bs).readByte y = m.readByte y := by
  induction bs generalizing m x with
  | nil => rfl
  | cons b bs ih =>
    simp only [List.length_cons] at hx hy
    have hw := Memory.writeByte_wf (b := b) h (show x < m.size.val by omega)
    rw [Memory.writeBytes, ih hw (by simp only [Memory.writeByte_size]; omega) (by omega), Memory.readByte_writeByte h,
      if_neg (by omega)]

/-- A read of the bytes written gives them back. -/
theorem Memory.readByte_writeBytes_inside {m : Memory} {x k : Nat} {bs : List Byte} (h : m.wf = true)
    (hx : x + bs.length ≤ m.size.val) (hk : k < bs.length) :
    (m.writeBytes x bs).readByte (x + k) = bs[k] := by
  induction bs generalizing m x k with
  | nil => simp at hk
  | cons b bs ih =>
    simp only [List.length_cons] at hx hk
    have hw := Memory.writeByte_wf (b := b) h (show x < m.size.val by omega)
    have hs : (m.writeByte x b).size.val = m.size.val := rfl
    rw [Memory.writeBytes]
    cases k with
    | zero =>
      rw [Memory.readByte_writeBytes_outside hw (by omega) (by omega), Memory.readByte_writeByte h]
      simp
    | succ k =>
      have := ih (k := k) hw (x := x + 1) (by omega) (by omega)
      rw [show x + (k + 1) = x + 1 + k by omega, this]
      rfl

/-- Memory with nothing listed is canonical. -/
theorem Memory.empty_wf (n : Fin (2 ^ 32)) : (Memory.mk n []).wf = true := rfl

/-- The memory right after reset is canonical. -/
theorem State.reset_mem_wf : State.reset.mem.wf = true := rfl

/-! ### The bytes of words -/

@[simp] theorem bytesOfWord_length (v : Word) : (bytesOfWord v).length = 4 := rfl

@[simp] theorem bytesOfInstrWord_length (w : InstrWord) : (bytesOfInstrWord w).length = 5 := rfl

/-- Byte `k` of a word. -/
theorem bytesOfWord_getElem (v : Word) (k : Nat) (hk : k < (bytesOfWord v).length) :
    (bytesOfWord v)[k] = v.extractLsb' (8 * k) 8 := by
  simp only [bytesOfWord_length] at hk
  obtain rfl | rfl | rfl | rfl : k = 0 ∨ k = 1 ∨ k = 2 ∨ k = 3 := by omega
  all_goals rfl

/-- Byte `k` of an instruction word. -/
theorem bytesOfInstrWord_getElem (w : InstrWord) (k : Nat) (hk : k < (bytesOfInstrWord w).length) :
    (bytesOfInstrWord w)[k] = w.extractLsb' (8 * k) 8 := by
  simp only [bytesOfInstrWord_length] at hk
  obtain rfl | rfl | rfl | rfl | rfl : k = 0 ∨ k = 1 ∨ k = 2 ∨ k = 3 ∨ k = 4 := by omega
  all_goals rfl

/-- A word is made of its four bytes. -/
theorem wordOfBytes_extract (v : Word) :
    wordOfBytes (v.extractLsb' 0 8) (v.extractLsb' 8 8) (v.extractLsb' 16 8) (v.extractLsb' 24 8) = v := by
  unfold wordOfBytes
  ext i hi
  simp only [BitVec.getElem_append, BitVec.getElem_extractLsb']
  split
  · simp [BitVec.getLsbD_eq_getElem, *]
  · split
    · rename_i h1 h2
      simp [show 8 + (i - 8) = i by omega, BitVec.getLsbD_eq_getElem, *]
    · split
      · rename_i h1 h2 h3
        simp [show 16 + (i - 8 - 8) = i by omega, BitVec.getLsbD_eq_getElem, *]
      · rename_i h1 h2 h3
        simp [show 24 + (i - 8 - 8 - 8) = i by omega, BitVec.getLsbD_eq_getElem, *]

/-- An instruction word is made of its five bytes. -/
theorem instrWordOfBytes_extract (w : InstrWord) :
    instrWordOfBytes (w.extractLsb' 0 8) (w.extractLsb' 8 8) (w.extractLsb' 16 8) (w.extractLsb' 24 8)
      (w.extractLsb' 32 8) = w := by
  unfold instrWordOfBytes
  ext i hi
  simp only [BitVec.getElem_append, BitVec.getElem_extractLsb']
  split
  · simp [BitVec.getLsbD_eq_getElem, *]
  · split
    · rename_i h1 h2
      simp [show 8 + (i - 8) = i by omega, BitVec.getLsbD_eq_getElem, *]
    · split
      · rename_i h1 h2 h3
        simp [show 16 + (i - 8 - 8) = i by omega, BitVec.getLsbD_eq_getElem, *]
      · split
        · rename_i h1 h2 h3 h4
          simp [show 24 + (i - 8 - 8 - 8) = i by omega, BitVec.getLsbD_eq_getElem, *]
        · rename_i h1 h2 h3 h4
          simp [show 32 + (i - 8 - 8 - 8 - 8) = i by omega, BitVec.getLsbD_eq_getElem, *]

end Sys2Proof.Machine
end

