-- ==== Sys2Proof/Laws/State.lean ====
section
/-! SUPPORT. One lemma per field per update of State, all true by rfl, so that no later proof unfolds a record update. -/

namespace Sys2Proof.Machine

/-! ### Writing register `a` -/

@[simp] theorem State.setReg_a_a (s : State) (v : Word) : (s.setReg .a v).a = v := rfl
@[simp] theorem State.setReg_a_b (s : State) (v : Word) : (s.setReg .a v).b = s.b := rfl
@[simp] theorem State.setReg_a_r (s : State) (v : Word) : (s.setReg .a v).r = s.r := rfl
@[simp] theorem State.setReg_a_pc (s : State) (v : Word) : (s.setReg .a v).pc = s.pc := rfl
@[simp] theorem State.setReg_a_flags (s : State) (v : Word) : (s.setReg .a v).flags = s.flags := rfl
@[simp] theorem State.setReg_a_status (s : State) (v : Word) : (s.setReg .a v).status = s.status := rfl
@[simp] theorem State.setReg_a_faultCause (s : State) (v : Word) : (s.setReg .a v).faultCause = s.faultCause := rfl
@[simp] theorem State.setReg_a_faultInfo (s : State) (v : Word) : (s.setReg .a v).faultInfo = s.faultInfo := rfl
@[simp] theorem State.setReg_a_mem (s : State) (v : Word) : (s.setReg .a v).mem = s.mem := rfl
@[simp] theorem State.setReg_a_out (s : State) (v : Word) : (s.setReg .a v).out = s.out := rfl

/-! ### Writing register `b` -/

@[simp] theorem State.setReg_b_a (s : State) (v : Word) : (s.setReg .b v).a = s.a := rfl
@[simp] theorem State.setReg_b_b (s : State) (v : Word) : (s.setReg .b v).b = v := rfl
@[simp] theorem State.setReg_b_r (s : State) (v : Word) : (s.setReg .b v).r = s.r := rfl
@[simp] theorem State.setReg_b_pc (s : State) (v : Word) : (s.setReg .b v).pc = s.pc := rfl
@[simp] theorem State.setReg_b_flags (s : State) (v : Word) : (s.setReg .b v).flags = s.flags := rfl
@[simp] theorem State.setReg_b_status (s : State) (v : Word) : (s.setReg .b v).status = s.status := rfl
@[simp] theorem State.setReg_b_faultCause (s : State) (v : Word) : (s.setReg .b v).faultCause = s.faultCause := rfl
@[simp] theorem State.setReg_b_faultInfo (s : State) (v : Word) : (s.setReg .b v).faultInfo = s.faultInfo := rfl
@[simp] theorem State.setReg_b_mem (s : State) (v : Word) : (s.setReg .b v).mem = s.mem := rfl
@[simp] theorem State.setReg_b_out (s : State) (v : Word) : (s.setReg .b v).out = s.out := rfl

/-! ### Writing register `r` -/

@[simp] theorem State.setReg_r_a (s : State) (v : Word) : (s.setReg .r v).a = s.a := rfl
@[simp] theorem State.setReg_r_b (s : State) (v : Word) : (s.setReg .r v).b = s.b := rfl
@[simp] theorem State.setReg_r_r (s : State) (v : Word) : (s.setReg .r v).r = v := rfl
@[simp] theorem State.setReg_r_pc (s : State) (v : Word) : (s.setReg .r v).pc = s.pc := rfl
@[simp] theorem State.setReg_r_flags (s : State) (v : Word) : (s.setReg .r v).flags = s.flags := rfl
@[simp] theorem State.setReg_r_status (s : State) (v : Word) : (s.setReg .r v).status = s.status := rfl
@[simp] theorem State.setReg_r_faultCause (s : State) (v : Word) : (s.setReg .r v).faultCause = s.faultCause := rfl
@[simp] theorem State.setReg_r_faultInfo (s : State) (v : Word) : (s.setReg .r v).faultInfo = s.faultInfo := rfl
@[simp] theorem State.setReg_r_mem (s : State) (v : Word) : (s.setReg .r v).mem = s.mem := rfl
@[simp] theorem State.setReg_r_out (s : State) (v : Word) : (s.setReg .r v).out = s.out := rfl

/-! ### Writing any register -/

@[simp] theorem State.getReg_a (s : State) : s.getReg .a = s.a := rfl
@[simp] theorem State.getReg_b (s : State) : s.getReg .b = s.b := rfl
@[simp] theorem State.getReg_r (s : State) : s.getReg .r = s.r := rfl

/-- A register write is seen by a read of the same register only. -/
@[simp] theorem State.getReg_setReg (s : State) (d e : Reg) (v : Word) :
    (s.setReg d v).getReg e = if e = d then v else s.getReg e := by
  cases d <;> cases e <;> rfl

@[simp] theorem State.setReg_pc (s : State) (d : Reg) (v : Word) : (s.setReg d v).pc = s.pc := by cases d <;> rfl
@[simp] theorem State.setReg_flags (s : State) (d : Reg) (v : Word) : (s.setReg d v).flags = s.flags := by cases d <;> rfl
@[simp] theorem State.setReg_status (s : State) (d : Reg) (v : Word) : (s.setReg d v).status = s.status := by cases d <;> rfl
@[simp] theorem State.setReg_faultCause (s : State) (d : Reg) (v : Word) : (s.setReg d v).faultCause = s.faultCause := by cases d <;> rfl
@[simp] theorem State.setReg_faultInfo (s : State) (d : Reg) (v : Word) : (s.setReg d v).faultInfo = s.faultInfo := by cases d <;> rfl
@[simp] theorem State.setReg_mem (s : State) (d : Reg) (v : Word) : (s.setReg d v).mem = s.mem := by cases d <;> rfl
@[simp] theorem State.setReg_out (s : State) (d : Reg) (v : Word) : (s.setReg d v).out = s.out := by cases d <;> rfl

/-! ### The effective address -/

@[simp] theorem State.effAddr_direct (s : State) (a : Word) : s.effAddr (.direct a) = a := rfl
@[simp] theorem State.effAddr_indirect (s : State) : s.effAddr .indirect = s.r := rfl

/-! ### `pc <- pc + 5` -/

@[simp] theorem State.advance_a (s : State) : (s.advance).a = s.a := rfl
@[simp] theorem State.advance_b (s : State) : (s.advance).b = s.b := rfl
@[simp] theorem State.advance_r (s : State) : (s.advance).r = s.r := rfl
@[simp] theorem State.advance_pc (s : State) : (s.advance).pc = s.pc + 5#32 := rfl
@[simp] theorem State.advance_flags (s : State) : (s.advance).flags = s.flags := rfl
@[simp] theorem State.advance_status (s : State) : (s.advance).status = s.status := rfl
@[simp] theorem State.advance_faultCause (s : State) : (s.advance).faultCause = s.faultCause := rfl
@[simp] theorem State.advance_faultInfo (s : State) : (s.advance).faultInfo = s.faultInfo := rfl
@[simp] theorem State.advance_mem (s : State) : (s.advance).mem = s.mem := rfl
@[simp] theorem State.advance_out (s : State) : (s.advance).out = s.out := rfl

/-! ### `pc <- target` -/

@[simp] theorem State.jump_a (s : State) (t : Word) : (s.jump t).a = s.a := rfl
@[simp] theorem State.jump_b (s : State) (t : Word) : (s.jump t).b = s.b := rfl
@[simp] theorem State.jump_r (s : State) (t : Word) : (s.jump t).r = s.r := rfl
@[simp] theorem State.jump_pc (s : State) (t : Word) : (s.jump t).pc = t := rfl
@[simp] theorem State.jump_flags (s : State) (t : Word) : (s.jump t).flags = s.flags := rfl
@[simp] theorem State.jump_status (s : State) (t : Word) : (s.jump t).status = s.status := rfl
@[simp] theorem State.jump_faultCause (s : State) (t : Word) : (s.jump t).faultCause = s.faultCause := rfl
@[simp] theorem State.jump_faultInfo (s : State) (t : Word) : (s.jump t).faultInfo = s.faultInfo := rfl
@[simp] theorem State.jump_mem (s : State) (t : Word) : (s.jump t).mem = s.mem := rfl
@[simp] theorem State.jump_out (s : State) (t : Word) : (s.jump t).out = s.out := rfl

/-! ### `STATE <- Halted` -/

@[simp] theorem State.halt_a (s : State) : (s.halt).a = s.a := rfl
@[simp] theorem State.halt_b (s : State) : (s.halt).b = s.b := rfl
@[simp] theorem State.halt_r (s : State) : (s.halt).r = s.r := rfl
@[simp] theorem State.halt_pc (s : State) : (s.halt).pc = s.pc := rfl
@[simp] theorem State.halt_flags (s : State) : (s.halt).flags = s.flags := rfl
@[simp] theorem State.halt_status (s : State) : (s.halt).status = .halted := rfl
@[simp] theorem State.halt_faultCause (s : State) : (s.halt).faultCause = s.faultCause := rfl
@[simp] theorem State.halt_faultInfo (s : State) : (s.halt).faultInfo = s.faultInfo := rfl
@[simp] theorem State.halt_mem (s : State) : (s.halt).mem = s.mem := rfl
@[simp] theorem State.halt_out (s : State) : (s.halt).out = s.out := rfl

/-! ### `raise` -/

@[simp] theorem State.raise_a (s : State) (f : CoreFault) : (s.raise f).a = s.a := rfl
@[simp] theorem State.raise_b (s : State) (f : CoreFault) : (s.raise f).b = s.b := rfl
@[simp] theorem State.raise_r (s : State) (f : CoreFault) : (s.raise f).r = s.r := rfl
@[simp] theorem State.raise_pc (s : State) (f : CoreFault) : (s.raise f).pc = s.pc := rfl
@[simp] theorem State.raise_flags (s : State) (f : CoreFault) : (s.raise f).flags = s.flags := rfl
@[simp] theorem State.raise_status (s : State) (f : CoreFault) : (s.raise f).status = .faulted := rfl
@[simp] theorem State.raise_faultCause (s : State) (f : CoreFault) : (s.raise f).faultCause = f.cause := rfl
@[simp] theorem State.raise_faultInfo (s : State) (f : CoreFault) : (s.raise f).faultInfo = f.info := rfl
@[simp] theorem State.raise_mem (s : State) (f : CoreFault) : (s.raise f).mem = s.mem := rfl
@[simp] theorem State.raise_out (s : State) (f : CoreFault) : (s.raise f).out = s.out := rfl

/-! ### The flags -/

@[simp] theorem State.setFlags_a (s : State) (f : Flags) : (s.setFlags f).a = s.a := rfl
@[simp] theorem State.setFlags_b (s : State) (f : Flags) : (s.setFlags f).b = s.b := rfl
@[simp] theorem State.setFlags_r (s : State) (f : Flags) : (s.setFlags f).r = s.r := rfl
@[simp] theorem State.setFlags_pc (s : State) (f : Flags) : (s.setFlags f).pc = s.pc := rfl
@[simp] theorem State.setFlags_flags (s : State) (f : Flags) : (s.setFlags f).flags = f := rfl
@[simp] theorem State.setFlags_status (s : State) (f : Flags) : (s.setFlags f).status = s.status := rfl
@[simp] theorem State.setFlags_faultCause (s : State) (f : Flags) : (s.setFlags f).faultCause = s.faultCause := rfl
@[simp] theorem State.setFlags_faultInfo (s : State) (f : Flags) : (s.setFlags f).faultInfo = s.faultInfo := rfl
@[simp] theorem State.setFlags_mem (s : State) (f : Flags) : (s.setFlags f).mem = s.mem := rfl
@[simp] theorem State.setFlags_out (s : State) (f : Flags) : (s.setFlags f).out = s.out := rfl

/-! ### `Emit` -/

@[simp] theorem State.emit_a (s : State) (e : Event) : (s.emit e).a = s.a := rfl
@[simp] theorem State.emit_b (s : State) (e : Event) : (s.emit e).b = s.b := rfl
@[simp] theorem State.emit_r (s : State) (e : Event) : (s.emit e).r = s.r := rfl
@[simp] theorem State.emit_pc (s : State) (e : Event) : (s.emit e).pc = s.pc := rfl
@[simp] theorem State.emit_flags (s : State) (e : Event) : (s.emit e).flags = s.flags := rfl
@[simp] theorem State.emit_status (s : State) (e : Event) : (s.emit e).status = s.status := rfl
@[simp] theorem State.emit_faultCause (s : State) (e : Event) : (s.emit e).faultCause = s.faultCause := rfl
@[simp] theorem State.emit_faultInfo (s : State) (e : Event) : (s.emit e).faultInfo = s.faultInfo := rfl
@[simp] theorem State.emit_mem (s : State) (e : Event) : (s.emit e).mem = s.mem := rfl
@[simp] theorem State.emit_out (s : State) (e : Event) : (s.emit e).out = s.out ++ [e] := rfl

/-! ### Reset -/

@[simp] theorem State.applyReset_a (s : State) : (s.applyReset).a = 0#32 := rfl
@[simp] theorem State.applyReset_b (s : State) : (s.applyReset).b = 0#32 := rfl
@[simp] theorem State.applyReset_r (s : State) : (s.applyReset).r = 0#32 := rfl
@[simp] theorem State.applyReset_pc (s : State) : (s.applyReset).pc = 0#32 := rfl
@[simp] theorem State.applyReset_flags (s : State) : (s.applyReset).flags = { gt := false, lt := false, eq := false, ne := false } := rfl
@[simp] theorem State.applyReset_status (s : State) : (s.applyReset).status = .running := rfl
@[simp] theorem State.applyReset_faultCause (s : State) : (s.applyReset).faultCause = 0#2 := rfl
@[simp] theorem State.applyReset_faultInfo (s : State) : (s.applyReset).faultInfo = 0#32 := rfl
@[simp] theorem State.applyReset_mem (s : State) : (s.applyReset).mem = s.mem := rfl
@[simp] theorem State.applyReset_out (s : State) : (s.applyReset).out = [] := rfl

end Sys2Proof.Machine
end

