-- ==== Sys2Proof/Laws/Ops.lean ====
section
/-! SUPPORT. One specification lemma per shared operation: everything it can do, said once, so that later proofs cite it
instead of unfolding the operation. -/

namespace Sys2Proof.Machine

/-! ### Words in memory -/

/-- The word read at an address is the word its four bytes hold. -/
theorem Memory.holdsWord_readWord (m : Memory) (addr : Word) : m.HoldsWord addr (m.readWord (uint addr)) := by
  intro k hk
  obtain rfl | rfl | rfl | rfl : k = 0 ∨ k = 1 ∨ k = 2 ∨ k = 3 := by omega
  all_goals
    simp only [Memory.readWord, wordOfBytes]
    ext i hi
    rw [BitVec.getElem_extractLsb']
    change _ = BitVec.getLsbD (w := 8 + 8 + 8 + 8) _ _
    simp only [BitVec.getLsbD_append]
    repeat rw [if_neg (by omega)]
    first
      | rw [if_pos (by omega), BitVec.getLsbD_eq_getElem (by omega)]
      | rw [BitVec.getLsbD_eq_getElem (by omega)]
    congr 1
    omega

/-- Four bytes hold one word only. -/
theorem Memory.readWord_of_holdsWord {m : Memory} {addr v : Word} (h : m.HoldsWord addr v) :
    m.readWord (uint addr) = v := by
  have h0 := h 0 (by omega)
  have h1 := h 1 (by omega)
  have h2 := h 2 (by omega)
  have h3 := h 3 (by omega)
  simp only [Nat.add_zero, Nat.mul_zero, Nat.mul_one, Nat.reduceMul] at h0 h1 h2 h3
  rw [Memory.readWord, h0, h1, h2, h3, wordOfBytes_extract]

/-- The instruction word read at an address is the one its five bytes hold. -/
theorem Memory.holdsInstr_readInstrWord (m : Memory) (addr : Word) :
    m.HoldsInstr addr (m.readInstrWord (uint addr)) := by
  intro k hk
  obtain rfl | rfl | rfl | rfl | rfl : k = 0 ∨ k = 1 ∨ k = 2 ∨ k = 3 ∨ k = 4 := by omega
  all_goals
    simp only [Memory.readInstrWord, instrWordOfBytes]
    ext i hi
    rw [BitVec.getElem_extractLsb']
    change _ = BitVec.getLsbD (w := 8 + 8 + 8 + 8 + 8) _ _
    simp only [BitVec.getLsbD_append]
    repeat rw [if_neg (by omega)]
    first
      | rw [if_pos (by omega), BitVec.getLsbD_eq_getElem (by omega)]
      | rw [BitVec.getLsbD_eq_getElem (by omega)]
    congr 1
    omega

/-- Five bytes hold one instruction word only. -/
theorem Memory.readInstrWord_of_holdsInstr {m : Memory} {addr : Word} {w : InstrWord} (h : m.HoldsInstr addr w) :
    m.readInstrWord (uint addr) = w := by
  have h0 := h 0 (by omega)
  have h1 := h 1 (by omega)
  have h2 := h 2 (by omega)
  have h3 := h 3 (by omega)
  have h4 := h 4 (by omega)
  simp only [Nat.add_zero, Nat.mul_zero, Nat.mul_one, Nat.reduceMul] at h0 h1 h2 h3 h4
  rw [Memory.readInstrWord, h0, h1, h2, h3, h4, instrWordOfBytes_extract]

/-! ### The memory port -/

theorem State.memRead1_eq (s : State) (addr : Word) : s.memRead1 addr =
    if uint addr + 1 ≤ s.mem.size.val then .ok (s.mem.readByte (uint addr)) else .error (.memoryFault addr) := rfl

theorem State.memRead4_eq (s : State) (addr : Word) : s.memRead4 addr =
    if uint addr + 4 ≤ s.mem.size.val then .ok (s.mem.readWord (uint addr)) else .error (.memoryFault addr) := rfl

theorem State.memRead5_eq (s : State) (addr : Word) : s.memRead5 addr =
    if uint addr + 5 ≤ s.mem.size.val then .ok (s.mem.readInstrWord (uint addr)) else .error (.memoryFault addr) := rfl

/-- A one-byte write: in bounds it changes exactly that byte of a canonical memory, otherwise nothing. -/
theorem State.memWrite1_spec {s : State} {addr : Word} {b : Byte} (hm : s.mem.wf = true) :
    (uint addr + 1 ≤ s.mem.size.val ∧ ∃ t, s.memWrite1 addr b = .ok t ∧ t = { s with mem := t.mem } ∧
      t.mem.size = s.mem.size ∧ t.mem.wf = true ∧ t.mem.readByte (uint addr) = b ∧
      ∀ x, x ≠ uint addr → t.mem.readByte x = s.mem.readByte x) ∨
    (s.mem.size.val < uint addr + 1 ∧ s.memWrite1 addr b = .error (.memoryFault addr)) := by
  by_cases h : uint addr + 1 ≤ s.mem.size.val
  · refine .inl ⟨h, { s with mem := s.mem.writeByte (uint addr) b }, by simp [State.memWrite1, h], rfl, rfl,
      Memory.writeByte_wf hm h, ?_, fun x hx => ?_⟩
    · simp [Memory.readByte_writeByte hm]
    · simp [Memory.readByte_writeByte hm, hx]
  · exact .inr ⟨by omega, by simp [State.memWrite1, h]⟩

/-- A four-byte write: in bounds it leaves the bytes of the value in a canonical memory and changes nothing else,
otherwise nothing is written. -/
theorem State.memWrite4_spec {s : State} {addr v : Word} (hm : s.mem.wf = true) :
    (uint addr + 4 ≤ s.mem.size.val ∧ ∃ t, s.memWrite4 addr v = .ok t ∧ t = { s with mem := t.mem } ∧
      t.mem.size = s.mem.size ∧ t.mem.wf = true ∧ t.mem.HoldsWord addr v ∧
      ∀ x, (x < uint addr ∨ uint addr + 4 ≤ x) → t.mem.readByte x = s.mem.readByte x) ∨
    (s.mem.size.val < uint addr + 4 ∧ s.memWrite4 addr v = .error (.memoryFault addr)) := by
  by_cases h : uint addr + 4 ≤ s.mem.size.val
  · refine .inl ⟨h, { s with mem := s.mem.writeBytes (uint addr) (bytesOfWord v) }, by simp [State.memWrite4, h], rfl,
      Memory.writeBytes_size _ _ _, Memory.writeBytes_wf hm (by simpa using h), fun k hk => ?_, fun x hx => ?_⟩
    · rw [Memory.readByte_writeBytes_inside hm (by simpa using h) (by simpa using hk), bytesOfWord_getElem]
    · exact Memory.readByte_writeBytes_outside hm (by simpa using h) (by simpa using hx)
  · exact .inr ⟨by omega, by simp [State.memWrite4, h]⟩

/-! ### Fetch -/

/-- The fetch answers the word whose bytes stand at `pc`. -/
theorem State.fetch_of_holdsInstr {s : State} {w : InstrWord} (hb : uint s.pc + 5 ≤ s.mem.size.val)
    (h : s.mem.HoldsInstr s.pc w) : s.fetch = .ok w := by
  rw [State.fetch, State.memRead5_eq, if_pos hb, Memory.readInstrWord_of_holdsInstr h]

/-- The fetch answers in bounds the word at `pc`, and faults otherwise. -/
theorem State.fetch_eq (s : State) : s.fetch =
    if uint s.pc + 5 ≤ s.mem.size.val then .ok (s.mem.readInstrWord (uint s.pc)) else .error (.memoryFault s.pc) := rfl

/-- An instruction placed at `pc` is what the next fetch answers. -/
theorem State.fetch_placeInstr {s : State} {w : InstrWord} (hm : s.mem.wf = true)
    (hb : uint s.pc + 5 ≤ s.mem.size.val) : (s.placeInstr w).fetch = .ok w := by
  have he : s.placeInstr w = { s with mem := s.mem.writeBytes (uint s.pc) (bytesOfInstrWord w) } := by
    simp [State.placeInstr, hb]
  rw [he]
  refine State.fetch_of_holdsInstr (by simpa using hb) fun k hk => ?_
  have hk' : k < (bytesOfInstrWord w).length := by simpa using hk
  exact (Memory.readByte_writeBytes_inside hm (by simpa using hb) hk').trans (bytesOfInstrWord_getElem w k hk')

/-! ### Taking a fault -/

/-- `raise` writes the fault record and STATE, and nothing else. -/
theorem State.raise_eq (s : State) (f : CoreFault) : s.raise f = s.faultedWith f.cause f.info := rfl

/-! ### The shapes of the families -/

/-- A load: in bounds the register and `pc`, otherwise the fault. -/
theorem loadWord_eq (d : Reg) (addr : Word) (s : State) : loadWord d addr s =
    .next (if uint addr + 4 ≤ s.mem.size.val then (s.setReg d (s.mem.readWord (uint addr))).advance
      else s.faultedWith 2#2 addr) := by
  rw [loadWord, State.memRead4_eq]
  by_cases h : uint addr + 4 ≤ s.mem.size.val <;> simp only [h, if_true, if_false]
  rfl

/-- A print: in bounds one event and `pc`, otherwise the fault. -/
theorem printWord_eq (event : Word → Event) (addr : Word) (s : State) : printWord event addr s =
    .next (if uint addr + 4 ≤ s.mem.size.val then (s.emit (event (s.mem.readWord (uint addr)))).advance
      else s.faultedWith 2#2 addr) := by
  rw [printWord, State.memRead4_eq]
  by_cases h : uint addr + 4 ≤ s.mem.size.val <;> simp only [h, if_true, if_false]
  rfl

/-- A store over canonical memory: in bounds it stores and advances only, otherwise it faults and writes nothing. -/
theorem storeWord_spec {addr v : Word} {s : State} (hm : s.mem.wf = true) :
    (uint addr + 4 ≤ s.mem.size.val ∧ ∃ t, storeWord addr v s = .next t ∧ StoresOnly s t addr v) ∨
    (s.mem.size.val < uint addr + 4 ∧ storeWord addr v s = .next (s.faultedWith 2#2 addr)) := by
  obtain ⟨h, t, ht, heq, hsize, hwf, hword, hframe⟩ | ⟨h, ht⟩ := State.memWrite4_spec (addr := addr) (v := v) hm
  · refine .inl ⟨h, t.advance, by rw [storeWord, ht], ?_, hsize, hwf, hword, hframe⟩
    rw [heq]
    rfl
  · exact .inr ⟨h, by rw [storeWord, ht]; rfl⟩

/-- A store in any state answers a next state: the advanced state with some memory of the same size, or the fault. -/
theorem storeWord_next (addr v : Word) (s : State) : storeWord addr v s =
    .next (if uint addr + 4 ≤ s.mem.size.val then
      { s with mem := s.mem.writeBytes (uint addr) (bytesOfWord v), pc := s.pc + 5#32 }
      else s.faultedWith 2#2 addr) := by
  rw [storeWord, State.memWrite4]
  by_cases h : uint addr + 4 ≤ s.mem.size.val <;> (simp only [Memory.inBounds, h, if_true, if_false]; rfl)

/-- An arithmetic instruction whose operation faults. -/
@[simp] theorem storeResult_error (f : CoreFault) (d : Word) (s : State) :
    storeResult (.error f) d s = .next (s.raise f) := rfl

/-- An arithmetic instruction whose operation answers. -/
@[simp] theorem storeResult_ok (r d : Word) (s : State) : storeResult (.ok r) d s = storeWord d r s := rfl

/-- A jump: the target or the advance. -/
theorem jumpWhen_eq (taken : Bool) (t : Word) (s : State) :
    jumpWhen taken t s = .next { s with pc := if taken = true then t else s.pc + 5#32 } := by
  cases taken <;> rfl

/-- The divider: the two faults in their order, or none. -/
theorem divideFault_cases (x y : Word) :
    (sint y = 0 ∧ divideFault x y = some .divisionByZero) ∨
    (sint y ≠ 0 ∧ sint x = int32Min ∧ sint y = -1 ∧ divideFault x y = some .divideOverflow) ∨
    (sint y ≠ 0 ∧ ¬ (sint x = int32Min ∧ sint y = -1) ∧ divideFault x y = none) := by
  unfold divideFault
  split
  · rename_i h
    exact .inl ⟨h, rfl⟩
  · rename_i h
    split
    · rename_i h2
      exact .inr (.inl ⟨h, h2.1, h2.2, rfl⟩)
    · rename_i h2
      exact .inr (.inr ⟨h, h2, rfl⟩)

/-! ### The integer interpretations -/

/-- The model's `sint` is the two's-complement value of the bit vector. -/
theorem sint_eq_toInt (v : Word) : sint v = v.toInt := by
  have hv := v.isLt
  have hb : v.getLsbD 31 = decide (2 ^ 31 ≤ v.toNat) := by
    rw [← BitVec.testBit_toNat, Nat.testBit_eq_decide_div_mod_eq]
    congr 1
    apply propext
    omega
  rw [sint, BitVec.toInt_eq_toNat_cond, hb]
  by_cases h : 2 ^ 31 ≤ v.toNat
  · rw [decide_eq_true h, if_pos rfl, if_neg (by omega)]
    norm_num
  · rw [decide_eq_false h, if_neg (by simp), if_pos (by omega)]

/-- The model's `int32` is the residue modulo `2^32` as a bit vector. -/
theorem int32_eq_ofInt (z : Int) : int32 z = BitVec.ofInt 32 z := by
  apply BitVec.eq_of_toNat_eq
  rw [BitVec.toNat_ofInt, int32, BitVec.toNat_ofNat]
  omega

end Sys2Proof.Machine
end

