-- ==== Sys2Proof/Laws/PerInstr.lean ====
section
/-! SUPPORT. Per-instruction lemmas about the syntax: every constructor is selected by exactly the row of the opcode map
(R55) that carries its opcode, and the row rebuilds it from its operand field. -/

namespace Sys2Proof

/-- The opcode map has a first row with the opcode of `i`; that row builds `i` from its operand field; `i` is well formed. -/
def Laws.OpcodeRow.Statement (i : Instr) : Prop :=
  (∃ row, opcodeTable.find? (fun row => row.opcode == i.opcode) = some row ∧ row.build i.imm = i) ∧ i.wellFormed = true

theorem Laws.OpcodeRow.loadai (imm : Word) : Laws.OpcodeRow.Statement (.loadai imm) :=
  ⟨⟨⟨0x01#8, .loadai⟩, rfl, rfl⟩, rfl⟩

theorem Laws.OpcodeRow.loadbi (imm : Word) : Laws.OpcodeRow.Statement (.loadbi imm) :=
  ⟨⟨⟨0x02#8, .loadbi⟩, rfl, rfl⟩, rfl⟩

theorem Laws.OpcodeRow.loadri (imm : Word) : Laws.OpcodeRow.Statement (.loadri imm) :=
  ⟨⟨⟨0x03#8, .loadri⟩, rfl, rfl⟩, rfl⟩

theorem Laws.OpcodeRow.loadam (imm : Word) : Laws.OpcodeRow.Statement (.loadam imm) :=
  ⟨⟨⟨0x04#8, .loadam⟩, rfl, rfl⟩, rfl⟩

theorem Laws.OpcodeRow.loadbm (imm : Word) : Laws.OpcodeRow.Statement (.loadbm imm) :=
  ⟨⟨⟨0x05#8, .loadbm⟩, rfl, rfl⟩, rfl⟩

theorem Laws.OpcodeRow.loadrm (imm : Word) : Laws.OpcodeRow.Statement (.loadrm imm) :=
  ⟨⟨⟨0x06#8, .loadrm⟩, rfl, rfl⟩, rfl⟩

theorem Laws.OpcodeRow.loadar (imm : Word) : Laws.OpcodeRow.Statement (.loadar imm) :=
  ⟨⟨⟨0x07#8, .loadar⟩, rfl, rfl⟩, rfl⟩

theorem Laws.OpcodeRow.loadbr (imm : Word) : Laws.OpcodeRow.Statement (.loadbr imm) :=
  ⟨⟨⟨0x08#8, .loadbr⟩, rfl, rfl⟩, rfl⟩

theorem Laws.OpcodeRow.stoream (imm : Word) : Laws.OpcodeRow.Statement (.stoream imm) :=
  ⟨⟨⟨0x09#8, .stoream⟩, rfl, rfl⟩, rfl⟩

theorem Laws.OpcodeRow.storebm (imm : Word) : Laws.OpcodeRow.Statement (.storebm imm) :=
  ⟨⟨⟨0x0A#8, .storebm⟩, rfl, rfl⟩, rfl⟩

theorem Laws.OpcodeRow.storerm (imm : Word) : Laws.OpcodeRow.Statement (.storerm imm) :=
  ⟨⟨⟨0x0B#8, .storerm⟩, rfl, rfl⟩, rfl⟩

theorem Laws.OpcodeRow.storear (imm : Word) : Laws.OpcodeRow.Statement (.storear imm) :=
  ⟨⟨⟨0x0C#8, .storear⟩, rfl, rfl⟩, rfl⟩

theorem Laws.OpcodeRow.storebr (imm : Word) : Laws.OpcodeRow.Statement (.storebr imm) :=
  ⟨⟨⟨0x0D#8, .storebr⟩, rfl, rfl⟩, rfl⟩

theorem Laws.OpcodeRow.addint (imm : Word) : Laws.OpcodeRow.Statement (.addint imm) :=
  ⟨⟨⟨0x0E#8, .addint⟩, rfl, rfl⟩, rfl⟩

theorem Laws.OpcodeRow.subint (imm : Word) : Laws.OpcodeRow.Statement (.subint imm) :=
  ⟨⟨⟨0x0F#8, .subint⟩, rfl, rfl⟩, rfl⟩

theorem Laws.OpcodeRow.multint (imm : Word) : Laws.OpcodeRow.Statement (.multint imm) :=
  ⟨⟨⟨0x10#8, .multint⟩, rfl, rfl⟩, rfl⟩

theorem Laws.OpcodeRow.divint (imm : Word) : Laws.OpcodeRow.Statement (.divint imm) :=
  ⟨⟨⟨0x11#8, .divint⟩, rfl, rfl⟩, rfl⟩

theorem Laws.OpcodeRow.modint (imm : Word) : Laws.OpcodeRow.Statement (.modint imm) :=
  ⟨⟨⟨0x12#8, .modint⟩, rfl, rfl⟩, rfl⟩

theorem Laws.OpcodeRow.addfloat (imm : Word) : Laws.OpcodeRow.Statement (.addfloat imm) :=
  ⟨⟨⟨0x13#8, .addfloat⟩, rfl, rfl⟩, rfl⟩

theorem Laws.OpcodeRow.subfloat (imm : Word) : Laws.OpcodeRow.Statement (.subfloat imm) :=
  ⟨⟨⟨0x14#8, .subfloat⟩, rfl, rfl⟩, rfl⟩

theorem Laws.OpcodeRow.multfloat (imm : Word) : Laws.OpcodeRow.Statement (.multfloat imm) :=
  ⟨⟨⟨0x15#8, .multfloat⟩, rfl, rfl⟩, rfl⟩

theorem Laws.OpcodeRow.divfloat (imm : Word) : Laws.OpcodeRow.Statement (.divfloat imm) :=
  ⟨⟨⟨0x16#8, .divfloat⟩, rfl, rfl⟩, rfl⟩

theorem Laws.OpcodeRow.cmpint (imm : Word) : Laws.OpcodeRow.Statement (.cmpint imm) :=
  ⟨⟨⟨0x17#8, .cmpint⟩, rfl, rfl⟩, rfl⟩

theorem Laws.OpcodeRow.cmpfloat (imm : Word) : Laws.OpcodeRow.Statement (.cmpfloat imm) :=
  ⟨⟨⟨0x18#8, .cmpfloat⟩, rfl, rfl⟩, rfl⟩

theorem Laws.OpcodeRow.jmp (imm : Word) : Laws.OpcodeRow.Statement (.jmp imm) :=
  ⟨⟨⟨0x19#8, .jmp⟩, rfl, rfl⟩, rfl⟩

theorem Laws.OpcodeRow.jeq (imm : Word) : Laws.OpcodeRow.Statement (.jeq imm) :=
  ⟨⟨⟨0x1A#8, .jeq⟩, rfl, rfl⟩, rfl⟩

theorem Laws.OpcodeRow.jne (imm : Word) : Laws.OpcodeRow.Statement (.jne imm) :=
  ⟨⟨⟨0x1B#8, .jne⟩, rfl, rfl⟩, rfl⟩

theorem Laws.OpcodeRow.jlt (imm : Word) : Laws.OpcodeRow.Statement (.jlt imm) :=
  ⟨⟨⟨0x1C#8, .jlt⟩, rfl, rfl⟩, rfl⟩

theorem Laws.OpcodeRow.jle (imm : Word) : Laws.OpcodeRow.Statement (.jle imm) :=
  ⟨⟨⟨0x1D#8, .jle⟩, rfl, rfl⟩, rfl⟩

theorem Laws.OpcodeRow.jgt (imm : Word) : Laws.OpcodeRow.Statement (.jgt imm) :=
  ⟨⟨⟨0x1E#8, .jgt⟩, rfl, rfl⟩, rfl⟩

theorem Laws.OpcodeRow.jge (imm : Word) : Laws.OpcodeRow.Statement (.jge imm) :=
  ⟨⟨⟨0x1F#8, .jge⟩, rfl, rfl⟩, rfl⟩

theorem Laws.OpcodeRow.printint (imm : Word) : Laws.OpcodeRow.Statement (.printint imm) :=
  ⟨⟨⟨0x20#8, .printint⟩, rfl, rfl⟩, rfl⟩

theorem Laws.OpcodeRow.printchar (imm : Word) : Laws.OpcodeRow.Statement (.printchar imm) :=
  ⟨⟨⟨0x21#8, .printchar⟩, rfl, rfl⟩, rfl⟩

theorem Laws.OpcodeRow.printfloat (imm : Word) : Laws.OpcodeRow.Statement (.printfloat imm) :=
  ⟨⟨⟨0x22#8, .printfloat⟩, rfl, rfl⟩, rfl⟩

theorem Laws.OpcodeRow.printrint (imm : Word) : Laws.OpcodeRow.Statement (.printrint imm) :=
  ⟨⟨⟨0x23#8, .printrint⟩, rfl, rfl⟩, rfl⟩

theorem Laws.OpcodeRow.printrfloat (imm : Word) : Laws.OpcodeRow.Statement (.printrfloat imm) :=
  ⟨⟨⟨0x24#8, .printrfloat⟩, rfl, rfl⟩, rfl⟩

theorem Laws.OpcodeRow.hlt (imm : Word) : Laws.OpcodeRow.Statement (.hlt imm) :=
  ⟨⟨⟨0x25#8, .hlt⟩, rfl, rfl⟩, rfl⟩

end Sys2Proof
end

