-- ==== Sys2Proof/Laws/Step.lean ====
section
/-! SUPPORT. What one step can do, said once: the three ways a step of a running machine goes (R141, R144), and the nine
shapes an instruction's next state can have, each with what it tells of the instruction. -/

namespace Sys2Proof.Machine

/-- A step of a running machine is the fetch, the decoder and the instruction (R141). -/
theorem step_running {s : State} (h : s.status = .running) : step s = match s.fetch with
    | .error f => .next (s.raise f)
    | .ok w => match decode w with
      | .invalid opc => .next (s.raise (.invalidOpcode opc))
      | .instr i => exec i s := by
  cases s
  cases h
  rfl

/-- Memory holds one instruction word at an address. -/
theorem Memory.holdsInstr_unique {m : Memory} {addr : Word} {w w' : InstrWord} (h : m.HoldsInstr addr w)
    (h' : m.HoldsInstr addr w') : w = w' := by
  rw [← Memory.readInstrWord_of_holdsInstr h, ← Memory.readInstrWord_of_holdsInstr h']

/-- A step of a running machine faults at the fetch, faults at the decoder, or runs the instruction at `pc`. -/
theorem step_cases {s : State} (h : s.status = .running) :
    (s.mem.size.val < uint s.pc + 5 ∧ step s = .next (s.faultedWith 2#2 s.pc)) ∨
    (∃ w, s.fetches ∧ s.mem.HoldsInstr s.pc w ∧
      ((∃ opc, decode w = .invalid opc ∧ step s = .next (s.faultedWith 1#2 (opc.setWidth 32))) ∨
       (∃ i, decode w = .instr i ∧ step s = exec i s))) := by
  have hs := step_running h
  by_cases hb : uint s.pc + 5 ≤ s.mem.size.val
  · rw [State.fetch_eq, if_pos hb] at hs
    refine .inr ⟨s.mem.readInstrWord (uint s.pc), ⟨h, hb⟩, Memory.holdsInstr_readInstrWord _ _, ?_⟩
    cases hd : decode (s.mem.readInstrWord (uint s.pc)) with
    | instr i =>
      simp only [hd] at hs
      exact .inr ⟨i, rfl, hs⟩
    | invalid opc =>
      simp only [hd] at hs
      exact .inl ⟨opc, rfl, hs⟩
  · rw [State.fetch_eq, if_neg hb] at hs
    exact .inl ⟨by omega, hs⟩

/-- The next state of an instruction, with what it tells of the instruction. -/
inductive ExecShape (i : Instr) (s : State) : Prop
  /-- A load wrote one of its registers. -/
  | load (d : Reg) (v : Word) (hd : d ∈ regsWritten i) (hp : isPrint i = false) (hc : isCompare i = false)
      (hj : jumpTarget i s.flags = none) (h : exec i s = .next (s.setReg d v).advance)
  /-- A compare wrote the flags. -/
  | compare (rel : Relation) (hc : isCompare i = true) (hp : isPrint i = false) (hj : jumpTarget i s.flags = none)
      (h : exec i s = .next (s.setFlags (flagsOf rel)).advance)
  /-- A jump was taken. -/
  | taken (target : Word) (hp : isPrint i = false) (hc : isCompare i = false) (hj : jumpTarget i s.flags = some target)
      (h : exec i s = .next { s with pc := target })
  /-- A jump was not taken. -/
  | notTaken (hp : isPrint i = false) (hc : isCompare i = false) (hj : jumpTarget i s.flags = none)
      (h : exec i s = .next s.advance)
  /-- A word was stored in bounds. -/
  | store (addr v : Word) (hb : uint addr + 4 ≤ s.mem.size.val) (hp : isPrint i = false) (hc : isCompare i = false)
      (hj : jumpTarget i s.flags = none)
      (h : exec i s = .next { s with mem := s.mem.writeBytes (uint addr) (bytesOfWord v), pc := s.pc + 5#32 })
  /-- A print emitted one event. -/
  | print (e : Event) (hp : isPrint i = true) (hc : isCompare i = false) (hj : jumpTarget i s.flags = none)
      (h : exec i s = .next (s.emit e).advance)
  /-- The data access does not lie in memory. -/
  | memoryFault (addr : Word) (hb : s.mem.size.val < uint addr + 4) (hc : isCompare i = false)
      (hj : jumpTarget i s.flags = none) (h : exec i s = .next (s.faultedWith 2#2 addr))
  /-- The divider faulted. -/
  | arithmeticFault (info : Word) (hf : info = 0#32 ∨ info = 1#32) (hi : ∃ d, i = .divint d ∨ i = .modint d)
      (h : exec i s = .next (s.faultedWith 3#2 info))
  /-- The machine halted. -/
  | halt (v : Word) (hi : i = .hlt v) (h : exec i s = .next s.halt)

/-- The shape of a jump. -/
theorem ExecShape.of_jumpWhen (i : Instr) (s : State) (b : Bool) (t : Word) (h : exec i s = jumpWhen b t s)
    (hp : isPrint i = false) (hc : isCompare i = false) (hj : jumpTarget i s.flags = if b then some t else none) :
    ExecShape i s := by
  rw [jumpWhen_eq] at h
  cases b
  · exact .notTaken hp hc hj h
  · exact .taken t hp hc hj h

/-- The shape of a load from memory. -/
theorem ExecShape.of_loadWord (i : Instr) (s : State) (d : Reg) (a : Word) (h : exec i s = loadWord d a s)
    (hd : d ∈ regsWritten i) (hp : isPrint i = false) (hc : isCompare i = false) (hj : jumpTarget i s.flags = none) :
    ExecShape i s := by
  rw [loadWord_eq] at h
  by_cases hb : uint a + 4 ≤ s.mem.size.val
  · rw [if_pos hb] at h; exact .load d _ hd hp hc hj h
  · rw [if_neg hb] at h; exact .memoryFault a (by omega) hc hj h

/-- The shape of a print. -/
theorem ExecShape.of_printWord (i : Instr) (s : State) (e) (a : Word) (h : exec i s = printWord e a s)
    (hp : isPrint i = true) (hc : isCompare i = false) (hj : jumpTarget i s.flags = none) : ExecShape i s := by
  rw [printWord_eq] at h
  by_cases hb : uint a + 4 ≤ s.mem.size.val
  · rw [if_pos hb] at h; exact .print _ hp hc hj h
  · rw [if_neg hb] at h; exact .memoryFault a (by omega) hc hj h

/-- The shape of a store. -/
theorem ExecShape.of_storeWord (i : Instr) (s : State) (a v : Word) (h : exec i s = storeWord a v s)
    (hp : isPrint i = false) (hc : isCompare i = false) (hj : jumpTarget i s.flags = none) : ExecShape i s := by
  rw [storeWord_next] at h
  by_cases hb : uint a + 4 ≤ s.mem.size.val
  · rw [if_pos hb] at h; exact .store a v hb hp hc hj h
  · rw [if_neg hb] at h; exact .memoryFault a (by omega) hc hj h

/-- The shape of a divide or remainder. -/
theorem ExecShape.of_storeResult (i : Instr) (s : State) (d : Word) (r : Except CoreFault Word)
    (h : exec i s = storeResult r d s)
    (hr : (∃ v, r = .ok v) ∨ r = .error .divisionByZero ∨ r = .error .divideOverflow)
    (hd : i = .divint d ∨ i = .modint d) : ExecShape i s := by
  rcases hr with ⟨v, rfl⟩ | rfl | rfl
  · rcases hd with rfl | rfl <;> exact ExecShape.of_storeWord _ s d v h rfl rfl rfl
  · exact .arithmeticFault 0 (.inl rfl) ⟨d, hd⟩ h
  · exact .arithmeticFault 1 (.inr rfl) ⟨d, hd⟩ h

/-- What the divider answers for a quotient. -/
theorem divInt_cases (x y : Word) :
    (∃ v, divInt x y = .ok v) ∨ divInt x y = .error .divisionByZero ∨ divInt x y = .error .divideOverflow := by
  unfold divInt; rcases divideFault_cases x y with ⟨_, h⟩ | ⟨_, _, _, h⟩ | ⟨_, _, h⟩ <;> simp [h]

/-- What the divider answers for a remainder. -/
theorem modInt_cases (x y : Word) :
    (∃ v, modInt x y = .ok v) ∨ modInt x y = .error .divisionByZero ∨ modInt x y = .error .divideOverflow := by
  unfold modInt; rcases divideFault_cases x y with ⟨_, h⟩ | ⟨_, _, _, h⟩ | ⟨_, _, h⟩ <;> simp [h]

/-- Every instruction in every state has one of the nine shapes. -/
theorem exec_cases (i : Instr) (s : State) : ExecShape i s := by
  cases i with
  | loadai v => exact .load .a v (by simp [regsWritten]) rfl rfl rfl rfl
  | loadbi v => exact .load .b v (by simp [regsWritten]) rfl rfl rfl rfl
  | loadri v => exact .load .r v (by simp [regsWritten]) rfl rfl rfl rfl
  | loadam a => exact ExecShape.of_loadWord _ _ .a a rfl (by simp [regsWritten]) rfl rfl rfl
  | loadbm a => exact ExecShape.of_loadWord _ _ .b a rfl (by simp [regsWritten]) rfl rfl rfl
  | loadrm a => exact ExecShape.of_loadWord _ _ .r a rfl (by simp [regsWritten]) rfl rfl rfl
  | loadar a => exact ExecShape.of_loadWord _ _ .a s.r rfl (by simp [regsWritten]) rfl rfl rfl
  | loadbr a => exact ExecShape.of_loadWord _ _ .b s.r rfl (by simp [regsWritten]) rfl rfl rfl
  | stoream a => exact ExecShape.of_storeWord _ _ a _ rfl rfl rfl rfl
  | storebm a => exact ExecShape.of_storeWord _ _ a _ rfl rfl rfl rfl
  | storerm a => exact ExecShape.of_storeWord _ _ a _ rfl rfl rfl rfl
  | storear a => exact ExecShape.of_storeWord _ _ s.r _ rfl rfl rfl rfl
  | storebr a => exact ExecShape.of_storeWord _ _ s.r _ rfl rfl rfl rfl
  | addint d => exact ExecShape.of_storeWord _ _ d _ rfl rfl rfl rfl
  | subint d => exact ExecShape.of_storeWord _ _ d _ rfl rfl rfl rfl
  | multint d => exact ExecShape.of_storeWord _ _ d _ rfl rfl rfl rfl
  | divint d => exact ExecShape.of_storeResult _ _ d _ rfl (divInt_cases _ _) (.inl rfl)
  | modint d => exact ExecShape.of_storeResult _ _ d _ rfl (modInt_cases _ _) (.inr rfl)
  | addfloat d => exact ExecShape.of_storeWord _ _ d _ rfl rfl rfl rfl
  | subfloat d => exact ExecShape.of_storeWord _ _ d _ rfl rfl rfl rfl
  | multfloat d => exact ExecShape.of_storeWord _ _ d _ rfl rfl rfl rfl
  | divfloat d => exact ExecShape.of_storeWord _ _ d _ rfl rfl rfl rfl
  | cmpint _ => exact .compare _ rfl rfl rfl rfl
  | cmpfloat _ => exact .compare _ rfl rfl rfl rfl
  | jmp t => exact ExecShape.of_jumpWhen _ s true t rfl rfl rfl rfl
  | jeq t => exact ExecShape.of_jumpWhen _ s s.flags.eq t rfl rfl rfl rfl
  | jne t => exact ExecShape.of_jumpWhen _ s s.flags.ne t rfl rfl rfl rfl
  | jlt t => exact ExecShape.of_jumpWhen _ s s.flags.lt t rfl rfl rfl rfl
  | jle t => exact ExecShape.of_jumpWhen _ s (s.flags.lt || s.flags.eq) t rfl rfl rfl (by simp [jumpTarget])
  | jgt t => exact ExecShape.of_jumpWhen _ s s.flags.gt t rfl rfl rfl rfl
  | jge t => exact ExecShape.of_jumpWhen _ s (s.flags.gt || s.flags.eq) t rfl rfl rfl (by simp [jumpTarget])
  | printint a => exact ExecShape.of_printWord _ _ _ a rfl rfl rfl rfl
  | printchar a => exact ExecShape.of_printWord _ _ _ a rfl rfl rfl rfl
  | printfloat a => exact ExecShape.of_printWord _ _ _ a rfl rfl rfl rfl
  | printrint a => exact ExecShape.of_printWord _ _ _ s.r rfl rfl rfl rfl
  | printrfloat a => exact ExecShape.of_printWord _ _ _ s.r rfl rfl rfl rfl
  | hlt v => exact .halt v rfl rfl

end Sys2Proof.Machine
end

