-- ==== Sys2Proof/Laws/Port.lean ====
section
/-! SUPPORT. The memory port at transaction level: the outcome of each transaction, and the exchanges of a step. -/

namespace Sys2Proof.Machine

/-! ### One transaction -/

theorem State.transact_read1 (s : State) (addr : Word) : s.transact (.read1 addr) =
    (if uint addr + 1 ≤ s.mem.size.val then .data1 (s.mem.readByte (uint addr)) else .boundsFault, s) := by
  rw [State.transact, State.memRead1_eq]
  split <;> rfl

theorem State.transact_read4 (s : State) (addr : Word) : s.transact (.read4 addr) =
    (if uint addr + 4 ≤ s.mem.size.val then .data4 (s.mem.readWord (uint addr)) else .boundsFault, s) := by
  rw [State.transact, State.memRead4_eq]
  split <;> rfl

theorem State.transact_read5 (s : State) (addr : Word) : s.transact (.read5 addr) =
    (if uint addr + 5 ≤ s.mem.size.val then .data5 (s.mem.readInstrWord (uint addr)) else .boundsFault, s) := by
  rw [State.transact, State.memRead5_eq]
  split <;> rfl

theorem State.transact_write1 (s : State) (addr : Word) (b : Byte) : s.transact (.write1 addr b) =
    if uint addr + 1 ≤ s.mem.size.val then (.written, { s with mem := s.mem.writeByte (uint addr) b })
    else (.boundsFault, s) := by
  rw [State.transact, State.memWrite1]
  by_cases h : uint addr + 1 ≤ s.mem.size.val <;> simp only [Memory.inBounds, h, if_true, if_false] <;> rfl

theorem State.transact_write4 (s : State) (addr v : Word) : s.transact (.write4 addr v) =
    if uint addr + 4 ≤ s.mem.size.val then
      (.written, { s with mem := s.mem.writeBytes (uint addr) (bytesOfWord v) })
    else (.boundsFault, s) := by
  rw [State.transact, State.memWrite4]
  by_cases h : uint addr + 4 ≤ s.mem.size.val <;> simp only [Memory.inBounds, h, if_true, if_false] <;> rfl

/-! ### The exchanges of a step -/

/-- A machine that is not running issues nothing; a running one issues the fetch, and after it the data access of the
instruction it fetched. -/
theorem State.exchanges_cases (s : State) :
    (s.status ≠ .running ∧ s.exchanges = []) ∨
    (s.status = .running ∧ s.mem.size.val < uint s.pc + 5 ∧ s.exchanges = [(.read5 s.pc, .boundsFault)]) ∨
    (s.fetches ∧ ∃ w, s.mem.HoldsInstr s.pc w ∧
      ((∃ opc, decode w = .invalid opc ∧ s.exchanges = [(.read5 s.pc, .data5 w)]) ∨
       (∃ i, decode w = .instr i ∧ s.exchanges =
          (.read5 s.pc, .data5 w) :: (dataTransaction i s).toList.map fun t => (t, (s.transact t).1)))) := by
  cases h : s.status with
  | halted => exact .inl ⟨by decide, by simp only [State.exchanges, h]⟩
  | faulted => exact .inl ⟨by decide, by simp only [State.exchanges, h]⟩
  | running =>
    by_cases hb : uint s.pc + 5 ≤ s.mem.size.val
    · refine .inr (.inr ⟨⟨h, hb⟩, s.mem.readInstrWord (uint s.pc), Memory.holdsInstr_readInstrWord _ _, ?_⟩)
      cases hd : decode (s.mem.readInstrWord (uint s.pc)) with
      | invalid opc => exact .inl ⟨opc, rfl, by simp only [State.exchanges, h, State.fetch_eq, if_pos hb, hd]⟩
      | instr i => exact .inr ⟨i, rfl, by simp only [State.exchanges, h, State.fetch_eq, if_pos hb, hd]⟩
    · exact .inr (.inl ⟨rfl, by omega, by simp only [State.exchanges, h, State.fetch_eq, if_neg hb]⟩)

end Sys2Proof.Machine
end

