-- ==== Sys2Proof/Tests/Slice0.lean ====
section
/-! SUPPORT. Own tests: instruction words written out from the spec's encodings (96_test_vectors_derived.md 1.1), single
steps from the spec's vectors (the id stands at each test), the refusals of the operand check, and a witness for the
hypotheses of each statement. -/

namespace Sys2Proof.Tests

open Sys2Proof.Machine

/-! ### Words written out from the encodings decode to their instructions (V-ENC) -/

theorem test_decode_loadai : decode 0x1234567801#40 = .instr (.loadai 0x12345678#32) := by decide
theorem test_decode_loadbi : decode 0x1234567802#40 = .instr (.loadbi 0x12345678#32) := by decide
theorem test_decode_loadri : decode 0x1234567803#40 = .instr (.loadri 0x12345678#32) := by decide
theorem test_decode_loadam : decode 0x0000006404#40 = .instr (.loadam 0x00000064#32) := by decide
theorem test_decode_loadbm : decode 0x0000006405#40 = .instr (.loadbm 0x00000064#32) := by decide
theorem test_decode_loadrm : decode 0x0000006406#40 = .instr (.loadrm 0x00000064#32) := by decide
theorem test_decode_loadar : decode 0x0000000007#40 = .instr (.loadar 0x00000000#32) := by decide
theorem test_decode_loadbr : decode 0x0000000008#40 = .instr (.loadbr 0x00000000#32) := by decide
theorem test_decode_stoream : decode 0x0000006409#40 = .instr (.stoream 0x00000064#32) := by decide
theorem test_decode_storebm : decode 0x000000640A#40 = .instr (.storebm 0x00000064#32) := by decide
theorem test_decode_storerm : decode 0x000000640B#40 = .instr (.storerm 0x00000064#32) := by decide
theorem test_decode_storear : decode 0x000000000C#40 = .instr (.storear 0x00000000#32) := by decide
theorem test_decode_storebr : decode 0x000000000D#40 = .instr (.storebr 0x00000000#32) := by decide
theorem test_decode_addint : decode 0x000000640E#40 = .instr (.addint 0x00000064#32) := by decide
theorem test_decode_subint : decode 0x000000640F#40 = .instr (.subint 0x00000064#32) := by decide
theorem test_decode_multint : decode 0x0000006410#40 = .instr (.multint 0x00000064#32) := by decide
theorem test_decode_divint : decode 0x0000006411#40 = .instr (.divint 0x00000064#32) := by decide
theorem test_decode_modint : decode 0x0000006412#40 = .instr (.modint 0x00000064#32) := by decide
theorem test_decode_addfloat : decode 0x0000006413#40 = .instr (.addfloat 0x00000064#32) := by decide
theorem test_decode_subfloat : decode 0x0000006414#40 = .instr (.subfloat 0x00000064#32) := by decide
theorem test_decode_multfloat : decode 0x0000006415#40 = .instr (.multfloat 0x00000064#32) := by decide
theorem test_decode_divfloat : decode 0x0000006416#40 = .instr (.divfloat 0x00000064#32) := by decide
theorem test_decode_cmpint : decode 0x0000000017#40 = .instr (.cmpint 0x00000000#32) := by decide
theorem test_decode_cmpfloat : decode 0x0000000018#40 = .instr (.cmpfloat 0x00000000#32) := by decide
theorem test_decode_jmp : decode 0x0000003C19#40 = .instr (.jmp 0x0000003C#32) := by decide
theorem test_decode_jeq : decode 0x0000003C1A#40 = .instr (.jeq 0x0000003C#32) := by decide
theorem test_decode_jne : decode 0x0000003C1B#40 = .instr (.jne 0x0000003C#32) := by decide
theorem test_decode_jlt : decode 0x0000003C1C#40 = .instr (.jlt 0x0000003C#32) := by decide
theorem test_decode_jle : decode 0x0000003C1D#40 = .instr (.jle 0x0000003C#32) := by decide
theorem test_decode_jgt : decode 0x0000003C1E#40 = .instr (.jgt 0x0000003C#32) := by decide
theorem test_decode_jge : decode 0x0000003C1F#40 = .instr (.jge 0x0000003C#32) := by decide
theorem test_decode_printint : decode 0x0000006420#40 = .instr (.printint 0x00000064#32) := by decide
theorem test_decode_printchar : decode 0x0000006421#40 = .instr (.printchar 0x00000064#32) := by decide
theorem test_decode_printfloat : decode 0x0000006422#40 = .instr (.printfloat 0x00000064#32) := by decide
theorem test_decode_printrint : decode 0x0000000023#40 = .instr (.printrint 0x00000000#32) := by decide
theorem test_decode_printrfloat : decode 0x0000000024#40 = .instr (.printrfloat 0x00000000#32) := by decide
theorem test_decode_hlt : decode 0x0000000025#40 = .instr (.hlt 0x00000000#32) := by decide

/-- `07 EF BE AD DE`: the unused operand is kept. -/
theorem test_decode_unused_operand : decode 0xDEADBEEF07#40 = .instr (.loadar 0xDEADBEEF#32) := by decide

theorem test_decode_zero_is_invalid : decode 0x0000000000#40 = .invalid 0x00#8 := by decide
theorem test_decode_26_is_invalid : decode 0x0000000026#40 = .invalid 0x26#8 := by decide

/-- The bytes of V-ENC-1: `01 78 56 34 12`. -/
theorem test_encode_bytes : encodeBytes (.loadai 0x12345678#32) = [0x01#8, 0x78#8, 0x56#8, 0x34#8, 0x12#8] := by decide

/-- No two rows of the opcode map share an opcode (R54). -/
theorem test_opcodes_distinct : opcodeTable.Pairwise (fun p q => p.opcode ≠ q.opcode) := by decide

/-- The table words are read with bit 0 in the first byte, and the bits above `nbits` are 0. -/
theorem test_decodeTableWord : decodeTableWord 40 0x123456789D01 = some (.loadai 0x3456789D#32) := by decide
theorem test_decodeTableWord_short : decodeTableWord 8 0xFF25 = some (.hlt 0#32) := by decide

/-! ### The operand checks -/

/-- R53: the spec writes an unused operand as zero; another value is refused as a spelling. -/
theorem test_canonical_refuses_unused_operand : (Instr.hlt 0xDEADBEEF#32).canonical = false := by decide
theorem test_canonical_accepts_zero : (Instr.hlt 0#32).canonical = true := by decide
/-- R53: the same instruction is well formed: it is legal and executes. -/
theorem test_wellFormed_unused_operand : (Instr.hlt 0xDEADBEEF#32).wellFormed = true := by decide
/-- R72: an address outside every memory is well formed; the access checks it, not the encoding. -/
theorem test_wellFormed_any_address : (Instr.loadam 0xFFFFFFFF#32).wellFormed = true := by decide

/-! ### Single steps from the vectors: `N = 256`, `pc = 16` unless said otherwise -/

/-- The vectors' machine: the listed cells, the given registers and flags. -/
def machine (a b r : Word) (flags : Flags) (cells : List Host.Cell) : State :=
  { State.reset with a := a, b := b, r := r, pc := 16#32, flags := flags, mem := { size := 256, cells := cells } }

/-- `FLAGS = 0000`. -/
def noFlags : Flags := { gt := false, lt := false, eq := false, ne := false }

/-- The state after one step, if there is one. -/
def after (s : State) : Option State :=
  match step s with
  | .next t => some t
  | .fault _ => none
  | .refused _ => none

/-- The word at an address after one step, with the new `pc` and STATE. -/
def wordAfter (x : Nat) (s : State) : Option (Word × Word × RunState) :=
  (after s).map fun t => (t.mem.readWord x, t.pc, t.status)

/-- The fault record after one step, with `pc`. -/
def faultAfter (s : State) : Option (RunState × BitVec 2 × Word × Word) :=
  (after s).map fun t => (t.status, t.faultCause, t.faultInfo, t.pc)

/-- V-LD-1. -/
theorem test_loadai_1 : (after (machine 0x00000000#32 0x00000000#32 0x00000000#32 noFlags
    [(16, 0x01#8), (17, 0x78#8), (18, 0x56#8), (19, 0x34#8), (20, 0x12#8)])).map (fun t => (t.a, t.pc)) =
    some (0x12345678#32, 21#32) := by decide

/-- V-LD-2. -/
theorem test_loadbi_1 : (after (machine 0x00000000#32 0x00000000#32 0x00000000#32 noFlags
    [(16, 0x02#8), (17, 0xFF#8), (18, 0xFF#8), (19, 0xFF#8), (20, 0xFF#8)])).map (fun t => (t.b, t.pc)) =
    some (0xFFFFFFFF#32, 21#32) := by decide

/-- V-LD-3. -/
theorem test_loadri_1 : (after (machine 0x00000000#32 0x00000000#32 0x00000000#32 noFlags
    [(16, 0x03#8), (17, 0xFC#8), (18, 0xFF#8), (19, 0xFF#8), (20, 0xFF#8)])).map (fun t => (t.r, t.pc)) =
    some (0xFFFFFFFC#32, 21#32) := by decide

/-- V-LD-5. -/
theorem test_loadam_1 : (after (machine 0x00000000#32 0x00000000#32 0x00000000#32 noFlags
    [(16, 0x04#8), (17, 0x41#8), (64, 0x11#8), (65, 0x22#8), (66, 0x33#8), (67, 0x44#8), (68, 0x55#8), (69, 0x66#8), (70, 0x77#8), (71, 0x88#8)])).map (fun t => (t.a, t.pc)) =
    some (0x55443322#32, 21#32) := by decide

/-- V-LD-6. -/
theorem test_loadbm_1 : (after (machine 0x00000000#32 0x00000000#32 0x00000000#32 noFlags
    [(16, 0x05#8), (17, 0xFC#8), (252, 0x0A#8), (253, 0x0B#8), (254, 0x0C#8), (255, 0x0D#8)])).map (fun t => (t.b, t.pc)) =
    some (0x0D0C0B0A#32, 21#32) := by decide

/-- V-LD-7. -/
theorem test_loadbm_2 : faultAfter (machine 0x00000000#32 0x11111111#32 0x00000000#32 noFlags
    [(16, 0x05#8), (17, 0xFD#8)]) =
    some (.faulted, 2#2, 0x000000FD#32, 16#32) := by decide

/-- V-LD-8. -/
theorem test_loadrm_1 : (after (machine 0x00000000#32 0x00000000#32 0x00000000#32 noFlags
    [(16, 0x06#8), (17, 0x40#8), (64, 0x41#8)])).map (fun t => (t.r, t.pc)) =
    some (0x00000041#32, 21#32) := by decide

/-- V-LD-12. -/
theorem test_loadar_1 : (after (machine 0x00000000#32 0x00000000#32 0x00000040#32 noFlags
    [(16, 0x07#8), (17, 0xEF#8), (18, 0xBE#8), (19, 0xAD#8), (20, 0xDE#8), (64, 0x0F#8)])).map (fun t => (t.a, t.pc)) =
    some (0x0000000F#32, 21#32) := by decide

/-- V-LD-10. -/
theorem test_loadbr_1 : faultAfter (machine 0x00000000#32 0x00000000#32 0xFFFFFFFE#32 noFlags
    [(16, 0x08#8)]) =
    some (.faulted, 2#2, 0xFFFFFFFE#32, 16#32) := by decide

/-- V-LD-13. -/
theorem test_loadbr_2 : (after (machine 0x00000000#32 0x00000000#32 0x00000000#32 noFlags
    [(0, 0xDD#8), (1, 0xCC#8), (2, 0xBB#8), (3, 0xAA#8), (16, 0x08#8)])).map (fun t => (t.b, t.pc)) =
    some (0xAABBCCDD#32, 21#32) := by decide

/-- V-ST-8. -/
theorem test_stoream_1 : wordAfter 16 (machine 0x00000025#32 0x00000000#32 0x00000000#32 noFlags
    [(16, 0x09#8), (17, 0x10#8)]) =
    some (0x00000025#32, 21#32, .running) := by decide

/-- V-ST-6. -/
theorem test_stoream_2 : faultAfter (machine 0x12345678#32 0x00000000#32 0x00000000#32 noFlags
    [(16, 0x09#8), (17, 0xFD#8), (253, 0xAA#8), (254, 0xBB#8), (255, 0xCC#8)]) =
    some (.faulted, 2#2, 0x000000FD#32, 16#32) := by decide

/-- V-ST-2. -/
theorem test_storebm_1 : wordAfter 65 (machine 0x00000000#32 0xA1B2C3D4#32 0x00000000#32 noFlags
    [(16, 0x0A#8), (17, 0x41#8)]) =
    some (0xA1B2C3D4#32, 21#32, .running) := by decide

/-- V-ST-9. -/
theorem test_storebm_2 : wordAfter 252 (machine 0x00000000#32 0x01020304#32 0x00000000#32 noFlags
    [(16, 0x0A#8), (17, 0xFC#8)]) =
    some (0x01020304#32, 21#32, .running) := by decide

/-- V-ST-3. -/
theorem test_storerm_1 : wordAfter 64 (machine 0x00000000#32 0x00000000#32 0xFFFFFFFF#32 noFlags
    [(16, 0x0B#8), (17, 0x40#8)]) =
    some (0xFFFFFFFF#32, 21#32, .running) := by decide

/-- V-ST-4. -/
theorem test_storear_1 : wordAfter 80 (machine 0x0000002A#32 0x00000000#32 0x00000050#32 noFlags
    [(16, 0x0C#8)]) =
    some (0x0000002A#32, 21#32, .running) := by decide

/-- V-ST-7. -/
theorem test_storear_2 : faultAfter (machine 0x00000001#32 0x00000000#32 0xFFFFFFFF#32 noFlags
    [(16, 0x0C#8)]) =
    some (.faulted, 2#2, 0xFFFFFFFF#32, 16#32) := by decide

/-- V-ST-5. -/
theorem test_storebr_1 : wordAfter 128 (machine 0x00000000#32 0x40490FDB#32 0x00000080#32 noFlags
    [(16, 0x0D#8)]) =
    some (0x40490FDB#32, 21#32, .running) := by decide

/-- V-INT-2. -/
theorem test_addint_1 : wordAfter 100 (machine 0x7FFFFFFF#32 0x00000001#32 0x00000000#32 noFlags
    [(16, 0x0E#8), (17, 0x64#8)]) =
    some (0x80000000#32, 21#32, .running) := by decide

/-- V-INT-28. -/
theorem test_addint_2 : faultAfter (machine 0x00000001#32 0x00000002#32 0x00000000#32 noFlags
    [(16, 0x0E#8), (17, 0xFD#8)]) =
    some (.faulted, 2#2, 0x000000FD#32, 16#32) := by decide

/-- V-INT-4. -/
theorem test_subint_1 : wordAfter 100 (machine 0x00000005#32 0x00000007#32 0x00000000#32 noFlags
    [(16, 0x0F#8), (17, 0x64#8)]) =
    some (0xFFFFFFFE#32, 21#32, .running) := by decide

/-- V-INT-6. -/
theorem test_subint_2 : wordAfter 100 (machine 0x00000000#32 0x80000000#32 0x00000000#32 noFlags
    [(16, 0x0F#8), (17, 0x64#8)]) =
    some (0x80000000#32, 21#32, .running) := by decide

/-- V-INT-7. -/
theorem test_multint_1 : wordAfter 100 (machine 0x00000006#32 0xFFFFFFF9#32 0x00000000#32 noFlags
    [(16, 0x10#8), (17, 0x64#8)]) =
    some (0xFFFFFFD6#32, 21#32, .running) := by decide

/-- V-INT-10. -/
theorem test_multint_2 : wordAfter 100 (machine 0x0000B505#32 0x0000B505#32 0x00000000#32 noFlags
    [(16, 0x10#8), (17, 0x64#8)]) =
    some (0x80001219#32, 21#32, .running) := by decide

/-- V-INT-12. -/
theorem test_divint_1 : wordAfter 100 (machine 0x00000007#32 0xFFFFFFFE#32 0x00000000#32 noFlags
    [(16, 0x11#8), (17, 0x64#8)]) =
    some (0xFFFFFFFD#32, 21#32, .running) := by decide

/-- V-INT-27. -/
theorem test_divint_2 : faultAfter (machine 0x00000005#32 0x00000000#32 0x00000000#32 noFlags
    [(16, 0x11#8), (18, 0x10#8)]) =
    some (.faulted, 3#2, 0x00000000#32, 16#32) := by decide

/-- V-INT-20. -/
theorem test_modint_1 : wordAfter 100 (machine 0xFFFFFFF9#32 0x00000002#32 0x00000000#32 noFlags
    [(16, 0x12#8), (17, 0x64#8)]) =
    some (0xFFFFFFFF#32, 21#32, .running) := by decide

/-- V-INT-25. -/
theorem test_modint_2 : faultAfter (machine 0x80000000#32 0xFFFFFFFF#32 0x00000000#32 noFlags
    [(16, 0x12#8), (17, 0x64#8)]) =
    some (.faulted, 3#2, 0x00000001#32, 16#32) := by decide

/-- V-FP-3. -/
theorem test_addfloat_1 : wordAfter 100 (machine 0x3F800001#32 0x33800000#32 0x00000000#32 noFlags
    [(16, 0x13#8), (17, 0x64#8)]) =
    some (0x3F800002#32, 21#32, .running) := by decide

/-- V-FP-11. -/
theorem test_addfloat_2 : wordAfter 100 (machine 0x00000001#32 0x00000001#32 0x00000000#32 noFlags
    [(16, 0x13#8), (17, 0x64#8)]) =
    some (0x00000002#32, 21#32, .running) := by decide

/-- V-FP-18. -/
theorem test_subfloat_1 : wordAfter 100 (machine 0x00800000#32 0x00000001#32 0x00000000#32 noFlags
    [(16, 0x14#8), (17, 0x64#8)]) =
    some (0x007FFFFF#32, 21#32, .running) := by decide

/-- V-FP-15. -/
theorem test_subfloat_2 : wordAfter 100 (machine 0x80000000#32 0x00000000#32 0x00000000#32 noFlags
    [(16, 0x14#8), (17, 0x64#8)]) =
    some (0x80000000#32, 21#32, .running) := by decide

/-- V-FP-19. -/
theorem test_multfloat_1 : wordAfter 100 (machine 0x3FC00000#32 0xC0000000#32 0x00000000#32 noFlags
    [(16, 0x15#8), (17, 0x64#8)]) =
    some (0xC0400000#32, 21#32, .running) := by decide

/-- V-FP-23. -/
theorem test_multfloat_2 : wordAfter 100 (machine 0x0D800000#32 0x8D800000#32 0x00000000#32 noFlags
    [(16, 0x15#8), (17, 0x64#8)]) =
    some (0x80000000#32, 21#32, .running) := by decide

/-- V-FP-28. -/
theorem test_divfloat_1 : wordAfter 100 (machine 0x3F800000#32 0x40400000#32 0x00000000#32 noFlags
    [(16, 0x16#8), (17, 0x64#8)]) =
    some (0x3EAAAAAB#32, 21#32, .running) := by decide

/-- V-FP-30. -/
theorem test_divfloat_2 : wordAfter 100 (machine 0xBF800000#32 0x00000000#32 0x00000000#32 noFlags
    [(16, 0x16#8), (17, 0x64#8)]) =
    some (0xFF800000#32, 21#32, .running) := by decide

/-- V-CMP-3. -/
theorem test_cmpint_1 : (after (machine 0x80000000#32 0x7FFFFFFF#32 0x00000000#32 noFlags
    [(16, 0x17#8)])).map (fun t => (t.flags.bits, t.pc)) =
    some (0b1010#4, 21#32) := by decide

/-- V-CMP-5. -/
theorem test_cmpint_2 : (after (machine 0xFFFFFFFF#32 0x00000000#32 0x00000000#32 noFlags
    [(16, 0x17#8)])).map (fun t => (t.flags.bits, t.pc)) =
    some (0b1010#4, 21#32) := by decide

/-- V-CMP-8. -/
theorem test_cmpfloat_1 : (after (machine 0x00000000#32 0x80000000#32 0x00000000#32 noFlags
    [(16, 0x18#8)])).map (fun t => (t.flags.bits, t.pc)) =
    some (0b0100#4, 21#32) := by decide

/-- V-CMP-11. -/
theorem test_cmpfloat_2 : (after (machine 0x7FC00000#32 0x7FC00000#32 0x00000000#32 { gt := false, lt := false, eq := true, ne := false }
    [(16, 0x18#8)])).map (fun t => (t.flags.bits, t.pc)) =
    some (0b1000#4, 21#32) := by decide

/-- V-JMP-36. -/
theorem test_jmp_1 : (after (machine 0x00000000#32 0x00000000#32 0x00000000#32 noFlags
    [(16, 0x19#8), (17, 0x10#8)])).map (fun t => t.pc) =
    some 16#32 := by decide

/-- V-JMP-37. -/
theorem test_jmp_2 : (after (machine 0x00000000#32 0x00000000#32 0x00000000#32 noFlags
    [(16, 0x19#8), (17, 0xFC#8)])).map (fun t => t.pc) =
    some 252#32 := by decide

/-- V-JMP-16. -/
theorem test_jeq_1 : (after (machine 0x00000000#32 0x00000000#32 0x00000000#32 { gt := false, lt := false, eq := true, ne := false }
    [(16, 0x1A#8), (17, 0x3C#8)])).map (fun t => t.pc) =
    some 60#32 := by decide

/-- V-JMP-23. -/
theorem test_jeq_2 : (after (machine 0x00000000#32 0x00000000#32 0x00000000#32 { gt := false, lt := false, eq := false, ne := true }
    [(16, 0x1A#8), (17, 0x3C#8)])).map (fun t => t.pc) =
    some 21#32 := by decide

/-- V-JMP-24. -/
theorem test_jne_1 : (after (machine 0x00000000#32 0x00000000#32 0x00000000#32 { gt := false, lt := false, eq := false, ne := true }
    [(16, 0x1B#8), (17, 0x3C#8)])).map (fun t => t.pc) =
    some 60#32 := by decide

/-- V-JMP-31. -/
theorem test_jne_2 : (after (machine 0x00000000#32 0x00000000#32 0x00000000#32 noFlags
    [(16, 0x1B#8), (17, 0x3C#8)])).map (fun t => t.pc) =
    some 21#32 := by decide

/-- V-JMP-11. -/
theorem test_jlt_1 : (after (machine 0x00000000#32 0x00000000#32 0x00000000#32 { gt := false, lt := true, eq := false, ne := true }
    [(16, 0x1C#8), (17, 0x3C#8)])).map (fun t => t.pc) =
    some 60#32 := by decide

/-- V-JMP-25. -/
theorem test_jlt_2 : (after (machine 0x00000000#32 0x00000000#32 0x00000000#32 { gt := false, lt := false, eq := false, ne := true }
    [(16, 0x1C#8), (17, 0x3C#8)])).map (fun t => t.pc) =
    some 21#32 := by decide

/-- V-JMP-19. -/
theorem test_jle_1 : (after (machine 0x00000000#32 0x00000000#32 0x00000000#32 { gt := false, lt := false, eq := true, ne := false }
    [(16, 0x1D#8), (17, 0x3C#8)])).map (fun t => t.pc) =
    some 60#32 := by decide

/-- V-JMP-26. -/
theorem test_jle_2 : (after (machine 0x00000000#32 0x00000000#32 0x00000000#32 { gt := false, lt := false, eq := false, ne := true }
    [(16, 0x1D#8), (17, 0x3C#8)])).map (fun t => t.pc) =
    some 21#32 := by decide

/-- V-JMP-6. -/
theorem test_jgt_1 : (after (machine 0x00000000#32 0x00000000#32 0x00000000#32 { gt := true, lt := false, eq := false, ne := true }
    [(16, 0x1E#8), (17, 0x3C#8)])).map (fun t => t.pc) =
    some 60#32 := by decide

/-- V-JMP-20. -/
theorem test_jgt_2 : (after (machine 0x00000000#32 0x00000000#32 0x00000000#32 { gt := false, lt := false, eq := true, ne := false }
    [(16, 0x1E#8), (17, 0x3C#8)])).map (fun t => t.pc) =
    some 21#32 := by decide

/-- V-JMP-21. -/
theorem test_jge_1 : (after (machine 0x00000000#32 0x00000000#32 0x00000000#32 { gt := false, lt := false, eq := true, ne := false }
    [(16, 0x1F#8), (17, 0x3C#8)])).map (fun t => t.pc) =
    some 60#32 := by decide

/-- V-JMP-28. -/
theorem test_jge_2 : (after (machine 0x00000000#32 0x00000000#32 0x00000000#32 { gt := false, lt := false, eq := false, ne := true }
    [(16, 0x1F#8), (17, 0x3C#8)])).map (fun t => t.pc) =
    some 21#32 := by decide

/-- V-PRT-2. -/
theorem test_printint_1 : (after (machine 0x00000000#32 0x00000000#32 0x00000000#32 noFlags
    [(16, 0x20#8), (17, 0x40#8), (64, 0xFF#8), (65, 0xFF#8), (66, 0xFF#8), (67, 0xFF#8)])).map (fun t => (t.out, t.pc)) =
    some ([.int 0xFFFFFFFF#32], 21#32) := by decide

/-- V-PRT-13. -/
theorem test_printint_2 : faultAfter (machine 0x00000000#32 0x00000000#32 0x00000000#32 noFlags
    [(16, 0x20#8), (17, 0xFF#8), (18, 0xFF#8), (19, 0xFF#8), (20, 0xFF#8)]) =
    some (.faulted, 2#2, 0xFFFFFFFF#32, 16#32) := by decide

/-- V-PRT-5. -/
theorem test_printchar_1 : (after (machine 0x00000000#32 0x00000000#32 0x00000000#32 noFlags
    [(16, 0x21#8), (17, 0x50#8), (80, 0x48#8), (81, 0x65#8), (82, 0x6C#8), (83, 0x6C#8)])).map (fun t => (t.out, t.pc)) =
    some ([.char 0x48#8], 21#32) := by decide

/-- V-PRT-6. -/
theorem test_printchar_2 : faultAfter (machine 0x00000000#32 0x00000000#32 0x00000000#32 noFlags
    [(16, 0x21#8), (17, 0xFD#8), (253, 0x61#8), (254, 0x62#8), (255, 0x63#8)]) =
    some (.faulted, 2#2, 0x000000FD#32, 16#32) := by decide

/-- V-PRT-9. -/
theorem test_printfloat_1 : (after (machine 0x00000000#32 0x00000000#32 0x00000000#32 noFlags
    [(16, 0x22#8), (17, 0x64#8), (100, 0x01#8), (102, 0x80#8), (103, 0xFF#8)])).map (fun t => (t.out, t.pc)) =
    some ([.float 0xFF800001#32], 21#32) := by decide

/-- V-PRT-10. -/
theorem test_printrint_1 : (after (machine 0x00000000#32 0x00000000#32 0x00000041#32 noFlags
    [(16, 0x23#8), (65, 0x0F#8)])).map (fun t => (t.out, t.pc)) =
    some ([.int 0x0000000F#32], 21#32) := by decide

/-- V-PRT-12. -/
theorem test_printrint_2 : faultAfter (machine 0x00000000#32 0x00000000#32 0x00000100#32 noFlags
    [(16, 0x23#8)]) =
    some (.faulted, 2#2, 0x00000100#32, 16#32) := by decide

/-- V-PRT-11. -/
theorem test_printrfloat_1 : (after (machine 0x00000000#32 0x00000000#32 0x00000064#32 noFlags
    [(16, 0x24#8), (102, 0x40#8), (103, 0xC0#8)])).map (fun t => (t.out, t.pc)) =
    some ([.float 0xC0400000#32], 21#32) := by decide

/-- V-CTL-2. -/
theorem test_hlt_1 : (after (machine 0x00000007#32 0x00000000#32 0x00000000#32 { gt := true, lt := false, eq := false, ne := true }
    [(16, 0x25#8), (17, 0xFF#8), (18, 0xFF#8), (19, 0xFF#8), (20, 0xFF#8)])).map (fun t => (t.status, t.pc)) =
    some (.halted, 16#32) := by decide

/-- V-CTL-7. -/
theorem test_hlt_2 : faultAfter { machine 0x00000000#32 0x00000000#32 0x00000000#32 noFlags
    [(252, 0x25#8)] with pc := 252#32 } =
    some (.faulted, 2#2, 0x000000FC#32, 252#32) := by decide

/-- V-CTL-5: an unrecognised opcode; the operand plays no part. -/
theorem test_invalid_opcode : faultAfter (machine 0#32 0#32 0#32 noFlags
    [(16, 0xFF#8), (17, 0x12#8), (18, 0x34#8), (19, 0x56#8), (20, 0x78#8)]) = some (.faulted, 1#2, 0x000000FF#32, 16#32) := by
  decide

/-- V-CTL-12: `N = 0`, the first fetch faults. -/
theorem test_no_memory : faultAfter { State.reset with mem := { size := 0, cells := [] } } =
    some (.faulted, 2#2, 0#32, 0#32) := by decide

/-- R170, V-CTL-14: reset of a halted machine. -/
theorem test_reset : (after { (machine 7#32 7#32 7#32 noFlags [(16, 0x25#8)]) with out := [.char 0x48#8] }).map
    (fun t => (t.status, t.applyReset.status, t.applyReset.a, t.applyReset.pc, t.applyReset.out)) =
    some (.halted, .running, 0#32, 0#32, []) := by decide

/-- From reset the unwritten memory reads as zero, which is no instruction (R56). -/
theorem test_reset_step : faultAfter State.reset = some (.faulted, 1#2, 0#32, 0#32) := by decide

/-- A placed word is the first instruction after reset. -/
theorem test_withFetchWord : (after (State.reset.withFetchWord 40 0x1234567801)).map (fun t => (t.a, t.pc)) =
    some (0x12345678#32, 5#32) := by decide

/-- R136: the text of integers (V-PRT-3, V-PRT-4, and the source's `15`). -/
theorem test_text : textOf [.int 0x0000000F#32, .int 0x00000000#32, .char 0x48#8, .int 0x80000000#32] =
    [0x31#8, 0x35#8, 0x30#8, 0x48#8, 0x2D#8, 0x32#8, 0x31#8, 0x34#8, 0x37#8, 0x34#8, 0x38#8, 0x33#8, 0x36#8, 0x34#8, 0x38#8] := by
  decide

/-- R37: the transactions of a step that runs `stoream 0x40`. -/
theorem test_transactions : (machine 0x2A#32 0#32 0#32 noFlags [(16, 0x09#8), (17, 0x40#8)]).transactions =
    [.read5 16#32, .write4 0x40#32 0x2A#32] := by decide

/-- R6, R7: the interpretations and the extensions. -/
theorem test_interpretations : sint 0xFFFFFFFF#32 = -1 ∧ uint 0xFFFFFFFF#32 = 4294967295 ∧ int32 (-1) = 0xFFFFFFFF#32 ∧
    sint 0x80000000#32 = int32Min ∧ sint 0x7FFFFFFF#32 = int32Max ∧ zext 32 0x80#8 = 0x80#32 ∧
    sext 32 0x80#8 = 0xFFFFFF80#32 := by decide

/-- R16, R19, R10, R130: the numbers of a debug view. -/
theorem test_codes : (Flags.mk true false false true).bits = 0b1001#4 ∧ RunState.faulted.code = 2#2 ∧ Reg.r.number = 2 ∧
    (Event.float 0#32).kind = 2 := by decide

/-! ### Witnesses: for each statement with hypotheses, concrete states that meet them, at the boundaries of its clauses -/

/-- A running machine with `N = 64` and the given `pc`, registers, flags and cells. -/
def small (pc a b r : Word) (flags : Flags) (cells : List Host.Cell) : State :=
  { State.reset with a := a, b := b, r := r, pc := pc, flags := flags, mem := { size := 64, cells := cells } }

/-- An illegal opcode at the last address an instruction can be fetched from (`N - 5 = 59`), opcode bytes 0x00 and 0x26. -/
theorem witness_IllegalOpcodesRaiseInvalidOpcode :
    ((small 59#32 0#32 0#32 0#32 noFlags []).fetches ∧
      (small 59#32 0#32 0#32 0#32 noFlags []).mem.HoldsInstr 59#32 0#40) ∧
    ((small 59#32 0#32 0#32 0#32 noFlags [(59, 0x26#8)]).fetches ∧
      (small 59#32 0#32 0#32 0#32 noFlags [(59, 0x26#8)]).mem.HoldsInstr 59#32 0x26#40) := by decide

/-- Two different words with one opcode byte, a legal and an illegal one. -/
theorem witness_OpcodeByteAloneSelectsTheInstruction :
    (0x0000000001#40).extractLsb' 0 8 = (0xFFFFFFFF01#40 : InstrWord).extractLsb' 0 8 ∧
    (0x0000000000#40).extractLsb' 0 8 = (0xFFFFFFFF00#40 : InstrWord).extractLsb' 0 8 := by decide

/-- `hlt` in the last five bytes. -/
theorem witness_StepRunsDecodedInstruction :
    (small 59#32 0#32 0#32 0#32 noFlags [(59, 0x25#8)]).AtInstr (.hlt 0#32) ∧
    decode (encode (.hlt 0#32)) = .instr (.hlt 0#32) ∧ (Instr.hlt 0#32).wellFormed = true := by decide

theorem witness_PlacedInstructionRunsNext :
    (small 59#32 0#32 0#32 0#32 noFlags [(59, 0x25#8)]).fetches ∧
    (small 59#32 0#32 0#32 0#32 noFlags [(59, 0x25#8)]).mem.wf = true := by decide

/-- One byte too far: `pc = N - 4`. -/
theorem witness_FetchPastTheEndFaults : (small 60#32 0#32 0#32 0#32 noFlags []).status = .running ∧
    (small 60#32 0#32 0#32 0#32 noFlags []).mem.size.val < uint 60#32 + 5 := by decide

/-- The three states of STATE, and a running machine for each kind of end: running, halted, and the causes 1, 2, 3. -/
theorem witness_StateMachineTransitions :
    (small 0#32 0#32 0#32 0#32 noFlags []).halt.status = .halted ∧
    ((small 0#32 0#32 0#32 0#32 noFlags []).raise .divisionByZero).status = .faulted ∧
    (after (small 0#32 0#32 0#32 0#32 noFlags [(0, 0x19#8)])).map (·.status) = some .running ∧
    (after (small 0#32 0#32 0#32 0#32 noFlags [(0, 0x25#8)])).map (·.status) = some .halted ∧
    (after (small 0#32 0#32 0#32 0#32 noFlags [])).map (·.faultCause) = some 1#2 ∧
    (after (small 60#32 0#32 0#32 0#32 noFlags [])).map (·.faultCause) = some 2#2 ∧
    (after (small 0#32 0#32 0#32 0#32 noFlags [(0, 0x11#8)])).map (·.faultCause) = some 3#2 := by decide

theorem witness_FaultingStepChangesOnlyTheRecord :
    (small 60#32 0#32 0#32 0#32 noFlags []).status = .running ∧
    step (small 60#32 0#32 0#32 0#32 noFlags []) = .next ((small 60#32 0#32 0#32 0#32 noFlags []).raise (.memoryFault 60#32)) ∧
    ((small 60#32 0#32 0#32 0#32 noFlags []).raise (.memoryFault 60#32)).status = .faulted := ⟨rfl, rfl, rfl⟩

/-- One state for each branch of the chain: fetch out of bounds, illegal opcode, zero divisor with the result address out of
bounds, `INT32_MIN` by `-1` with it out of bounds, and the result address alone out of bounds. -/
theorem witness_FaultPriority :
    faultAfter (small 60#32 0#32 0#32 0#32 noFlags []) = some (.faulted, 2#2, 60#32, 60#32) ∧
    faultAfter (small 0#32 0#32 0#32 0#32 noFlags [(0, 0x26#8)]) = some (.faulted, 1#2, 0x26#32, 0#32) ∧
    faultAfter (small 0#32 5#32 0#32 0#32 noFlags [(0, 0x11#8), (1, 61#8)]) = some (.faulted, 3#2, 0#32, 0#32) ∧
    faultAfter (small 0#32 0x80000000#32 0xFFFFFFFF#32 0#32 noFlags [(0, 0x12#8), (1, 61#8)]) =
      some (.faulted, 3#2, 1#32, 0#32) ∧
    faultAfter (small 0#32 5#32 1#32 0#32 noFlags [(0, 0x11#8), (1, 61#8)]) = some (.faulted, 2#2, 61#32, 0#32) ∧
    (small 0#32 5#32 1#32 0#32 noFlags [(0, 0x11#8), (1, 61#8)]).mem.HoldsInstr 0#32 (encode (.divint 61#32)) :=
  ⟨by decide, by decide, by decide, by decide, by decide, by decide⟩

/-- The invariant and a step from it: a store that changes memory. -/
theorem witness_StepKeepsTheInvariant : (small 0#32 7#32 0#32 0#32 noFlags [(0, 0x09#8), (1, 60#8)]).Inv ∧
    ∃ t, step (small 0#32 7#32 0#32 0#32 noFlags [(0, 0x09#8), (1, 60#8)]) = .next t :=
  ⟨⟨by decide, by decide, by unfold State.faultRecordOk; decide⟩, _, rfl⟩

theorem witness_ResetEstablishesTheInvariant : (Memory.mk 64 [(0, 1#8), (63, 0xFF#8)]).wf = true ∧
    ((small 0#32 7#32 0#32 0#32 noFlags [(63, 1#8)]).raise .divisionByZero).mem.wf = true := by decide

/-- A print that emits, and one that faults. -/
theorem witness_OutputOnlyGrowsAndIsNotRead :
    (∃ t, step (small 0#32 0#32 0#32 0#32 noFlags [(0, 0x20#8), (1, 60#8)]) = .next t) ∧
    (∃ t, exec (.printint 60#32) (small 0#32 0#32 0#32 0#32 noFlags []) = .next t ∧ t.status = .running ∧
      isPrint (.printint 60#32) = true ∧ t.out = [.int 0#32]) ∧
    (∃ t, exec (.printint 61#32) (small 0#32 0#32 0#32 0#32 noFlags []) = .next t ∧ t.out = []) :=
  ⟨⟨_, rfl⟩, ⟨_, rfl, rfl, rfl, rfl⟩, ⟨_, rfl, rfl⟩⟩

theorem witness_RegistersWrittenAndReadAsTabled :
    (∃ t, exec (.loadai 5#32) (small 0#32 0#32 0#32 0#32 noFlags []) = .next t) ∧ Reg.b ∉ regsWritten (.loadai 5#32) ∧
    regsWritten (.loadai 5#32) ≠ [] ∧ Reg.a ∉ regsRead (.loadai 5#32) ∧ Reg.r ∉ regsRead (.addint 5#32) :=
  ⟨⟨_, rfl⟩, by decide, by decide, by decide, by decide⟩

/-- A compare, a conditional jump, and an instruction that is neither. -/
theorem witness_FlagsWrittenByComparesReadByJumps : isCompare (.cmpint 0#32) = true ∧
    isCompare (.jeq 0#32) = false ∧ isConditionalJump (.jeq 0#32) = true ∧
    isCompare (.addint 0#32) = false ∧ isConditionalJump (.addint 0#32) = false := by decide

/-- A taken jump, an advance, a halt and a fault. -/
theorem witness_ProgramCounterRule :
    (∃ t, exec (.jmp 60#32) (small 0#32 0#32 0#32 0#32 noFlags []) = .next t ∧ t.status = .running ∧ t.pc = 60#32) ∧
    (∃ t, exec (.jeq 60#32) (small 0#32 0#32 0#32 0#32 noFlags []) = .next t ∧ t.status = .running ∧ t.pc = 5#32) ∧
    (∃ t, exec (.hlt 60#32) (small 7#32 0#32 0#32 0#32 noFlags []) = .next t ∧ t.status = .halted ∧ t.pc = 7#32) ∧
    (∃ t, exec (.loadam 61#32) (small 7#32 0#32 0#32 0#32 noFlags []) = .next t ∧ t.status = .faulted ∧ t.pc = 7#32) :=
  ⟨⟨_, rfl, rfl, rfl⟩, ⟨_, rfl, rfl, rfl⟩, ⟨_, rfl, rfl, rfl⟩, ⟨_, rfl, rfl, rfl⟩⟩

/-- The last instruction of the largest memory. -/
theorem witness_ProgramCounterNeverWraps : ({ State.reset with pc := 0xFFFFFFFA#32 } : State).fetches := by decide

/-- The last word of memory, the last address with a word at `a + 1`, and the last instruction. -/
theorem witness_LittleEndianMemory : (small 59#32 0#32 0#32 0#32 noFlags []).mem.wf = true ∧
    uint 60#32 + 4 ≤ (small 59#32 0#32 0#32 0#32 noFlags []).mem.size.val ∧
    uint 59#32 + 5 ≤ (small 59#32 0#32 0#32 0#32 noFlags []).mem.size.val := by decide

/-- Both branches of each width at the end of memory; the memory of the write is canonical. -/
theorem witness_MemReadRule_MemWriteRule : (small 0#32 0#32 0#32 0#32 noFlags []).mem.wf = true ∧
    (uint 63#32 + 1 ≤ 64 ∧ ¬ uint 64#32 + 1 ≤ 64) ∧ (uint 60#32 + 4 ≤ 64 ∧ ¬ uint 61#32 + 4 ≤ 64) ∧
    (uint 59#32 + 5 ≤ 64 ∧ ¬ uint 60#32 + 5 ≤ 64) ∧ ¬ uint 0xFFFFFFFF#32 + 1 ≤ 2 ^ 32 - 1 := by decide

/-- A store that overwrites the opcode of the next instruction (at 5) and the three bytes before it. -/
theorem witness_StoreIsSeenByTheNextFetch : ∃ t,
    exec (.stoream 2#32) (small 0#32 0x25000000#32 0#32 0#32 noFlags []) = .next t ∧
    StoresOnly (small 0#32 0x25000000#32 0#32 0#32 noFlags []) t 2#32 0x25000000#32 ∧
    uint t.pc + 5 ≤ t.mem.size.val := by
  obtain ⟨-, t, h, hs⟩ | ⟨h, -⟩ := storeWord_spec (addr := 2#32) (v := 0x25000000#32)
    (s := small 0#32 0x25000000#32 0#32 0#32 noFlags []) rfl
  · have hpc : t.pc = 5#32 := (congrArg State.pc hs.1).trans rfl
    exact ⟨t, h, hs, by rw [hpc, hs.2.1]; decide⟩
  · exact absurd h (by decide)

/-- The store lands inside itself (`addr = 5`). -/
theorem witness_LoadThenStoreRoundTrip :
    (Instr.loadbi, Instr.storebm) ∈ [(Instr.loadai, Instr.stoream), (.loadbi, .storebm), (.loadri, .storerm)] ∧
    (small 0#32 0#32 0#32 0#32 noFlags [(0, 0x02#8), (1, 0x78#8), (5, 0x0A#8), (6, 5#8)]).mem.wf = true ∧
    (small 0#32 0#32 0#32 0#32 noFlags [(0, 0x02#8), (1, 0x78#8), (5, 0x0A#8), (6, 5#8)]).AtInstr (.loadbi 0x78#32) ∧
    (small 0#32 0#32 0#32 0#32 noFlags [(0, 0x02#8), (1, 0x78#8), (5, 0x0A#8), (6, 5#8)]).mem.HoldsInstr 5#32
      (encode (.storebm 5#32)) ∧ uint 0#32 + 10 ≤ 64 ∧ uint 5#32 + 4 ≤ 64 := by
  exact ⟨by simp, by decide, by decide, by decide, by decide, by decide⟩

theorem witness_CanonicalMemoriesAreDeterminedByTheirBytes :
    (Memory.mk 4 [(1, 1#8)]).wf = true ∧ (Memory.mk 4 [(1, 1#8)]).size = (Memory.mk 4 [(1, 1#8)]).size ∧
    ∀ x, x < 4 → (Memory.mk 4 [(1, 1#8)]).readByte x = (Memory.mk 4 [(1, 1#8)]).readByte x := by decide

/-- `loadam` of its own address. -/
theorem witness_LoadDirectReadsTheWordAtTheOperand :
    (small 16#32 0#32 0#32 0#32 noFlags [(16, 0x04#8), (17, 0x10#8)]).AtInstr (.loadam 16#32) ∧
    (small 16#32 0#32 0#32 0#32 noFlags [(16, 0x04#8), (17, 0x10#8)]).pc = 16#32 ∧
    (uint 60#32 + 4 ≤ 64 ∧ 64 < uint 61#32 + 4) := by decide

/-- Loads, stores and prints through `R`: the last word of memory, and one byte too far. -/
theorem witness_indirect_accesses : (small 0#32 1#32 2#32 60#32 noFlags [(60, 1#8)]).mem.wf = true ∧
    uint (small 0#32 1#32 2#32 60#32 noFlags [(60, 1#8)]).r + 4 ≤ 64 ∧
    64 < uint (small 0#32 1#32 2#32 61#32 noFlags []).r + 4 ∧
    (small 0#32 1#32 2#32 0xFFFFFFFE#32 noFlags []).r = 0xFFFFFFFE#32 := by decide

/-- Stores and arithmetic results at the operand address: the last word of memory, and one byte too far. -/
theorem witness_direct_stores : (small 0#32 1#32 2#32 0#32 noFlags [(60, 1#8)]).mem.wf = true ∧
    uint 60#32 + 4 ≤ (small 0#32 1#32 2#32 0#32 noFlags [(60, 1#8)]).mem.size.val ∧
    (small 0#32 1#32 2#32 0#32 noFlags [(60, 1#8)]).mem.size.val < uint 61#32 + 4 := by decide

/-- The three branches of the divider, with the nearest pairs that do not fault. -/
theorem witness_division : divideFault 5#32 0#32 = some .divisionByZero ∧
    divideFault 0x80000000#32 0xFFFFFFFF#32 = some .divideOverflow ∧ divideFault 0x80000000#32 1#32 = none ∧
    divideFault 0x80000001#32 0xFFFFFFFF#32 = none ∧ divideFault 0x80000000#32 0xFFFFFFFE#32 = none := by decide

/-- The rows of the format at their first and last patterns. -/
theorem witness_FloatFormatIsBinary32 : fval 0x80000000#32 = some (.finite true 0) ∧
    fval 0x007FFFFF#32 = some (.finite false (2 ^ 23 - 1)) ∧ fval 0x00800000#32 = some (.finite false (2 ^ 23)) ∧
    fval 0x7F7FFFFF#32 = some (.finite false ((2 ^ 24 - 1) * 2 ^ 253)) ∧ fval 0x7F800001#32 = none := by decide

/-- The clauses of rounding where they meet: the tie at `2^-150`, just above it, the overflow threshold, just below it. -/
theorem witness_RoundingIsToNearestTiesToEven : fbits (round true 1 2) = 0x80000000#32 ∧
    fbits (round true 101 200) = 0x80000001#32 ∧
    fbits (round false ((2 ^ 25 - 1) * 2 ^ 252) 1) = 0x7F800000#32 ∧
    fbits (round false ((2 ^ 25 - 1) * 2 ^ 252 - 1) 1) = 0x7F7FFFFF#32 := by decide

/-- A right operand that is not a NaN, with a difference that is not a NaN. -/
theorem witness_SubfloatStoresTheRoundedDifference : fval 0x40000000#32 ≠ none ∧
    fval (subFloat 0x3F800000#32 0x40000000#32) ≠ none := by decide

/-- A quiet and a signalling NaN, one on each side. -/
theorem witness_NaNOperandsGiveNaNResults : fval 0x7FC00000#32 = none ∧ fval 0xFF800001#32 = none := by decide

/-- The four relations of `cmpfloat` and the three of `cmpint`. -/
theorem witness_compares : compareFloat 0x7F800000#32 0x7F7FFFFF#32 = .greater ∧
    compareFloat 0x80000001#32 0x00000000#32 = .less ∧ compareFloat 0x80000000#32 0x00000000#32 = .equal ∧
    compareFloat 0x7FC00000#32 0x7FC00000#32 = .unordered ∧ compareInt 0x7FFFFFFF#32 0x80000000#32 = .greater ∧
    compareInt 0x80000000#32 0x7FFFFFFF#32 = .less ∧ compareInt 0#32 0#32 = .equal := by decide

/-- `1.5 < 2.0` as floats, by the statements' own words. -/
theorem witness_FloatLess : FloatLess 0x3FC00000#32 0x40000000#32 :=
  ⟨.finite false (3 * 2 ^ 148), .finite false (2 ^ 150), by decide, by decide, by
    simp only [FloatNumber.Less, unitsValue]; norm_num⟩

/-- Each row of the outcome table is the FLAGS of some state. -/
theorem witness_FlagOutcomesAndTheJumpsTheyTake :
    (flagsOf .greater).bits = 0b1001#4 ∧ (flagsOf .less).bits = 0b1010#4 ∧ (flagsOf .equal).bits = 0b0100#4 ∧
    (flagsOf .unordered).bits = 0b1000#4 ∧ noFlags.bits = 0b0000#4 ∧
    (∃ t, exec (.cmpfloat 0#32) (small 0#32 0x7FC00000#32 0#32 0#32 noFlags []) = .next t) :=
  ⟨by decide, by decide, by decide, by decide, by decide, ⟨_, rfl⟩⟩

/-- `loadai 1; loadbi 0; cmpint; jge 60` at 0, in a memory whose last five bytes are the target. -/
theorem witness_CompareAndBranchProperties_int :
    (small 0#32 0#32 0#32 0#32 noFlags [(0, 0x01#8), (1, 1#8), (5, 0x02#8), (10, 0x17#8), (15, 0x1F#8), (16, 59#8)]).status =
      .running ∧ uint 0#32 + 20 ≤ 64 ∧
    (Memory.mk 64 [(0, 0x01#8), (1, 1#8), (5, 0x02#8), (10, 0x17#8), (15, 0x1F#8), (16, 59#8)]).HoldsInstr 0#32
      (encode (.loadai 1#32)) ∧
    (Memory.mk 64 [(0, 0x01#8), (1, 1#8), (5, 0x02#8), (10, 0x17#8), (15, 0x1F#8), (16, 59#8)]).HoldsInstr 5#32
      (encode (.loadbi 0#32)) ∧
    (Memory.mk 64 [(0, 0x01#8), (1, 1#8), (5, 0x02#8), (10, 0x17#8), (15, 0x1F#8), (16, 59#8)]).HoldsInstr 10#32
      (encode (.cmpint 0#32)) ∧
    (Memory.mk 64 [(0, 0x01#8), (1, 1#8), (5, 0x02#8), (10, 0x17#8), (15, 0x1F#8), (16, 59#8)]).HoldsInstr 15#32
      (encode (.jge 59#32)) := by decide

/-- The same with `cmpfloat` and `jlt`. -/
theorem witness_CompareAndBranchProperties_float :
    (Memory.mk 64 [(0, 0x01#8), (1, 1#8), (5, 0x02#8), (10, 0x18#8), (15, 0x1C#8), (16, 59#8)]).HoldsInstr 10#32
      (encode (.cmpfloat 0#32)) ∧
    (Memory.mk 64 [(0, 0x01#8), (1, 1#8), (5, 0x02#8), (10, 0x18#8), (15, 0x1C#8), (16, 59#8)]).HoldsInstr 15#32
      (encode (.jlt 59#32)) := by decide

/-- A taken jump one byte too far. -/
theorem witness_JumpTargetsAreCheckedAtTheNextFetch : (small 0#32 0#32 0#32 0#32 (flagsOf .equal) []).status = .running ∧
    jumpTarget (.jge 60#32) (small 0#32 0#32 0#32 0#32 (flagsOf .equal) []).flags = some 60#32 ∧ 64 < uint 60#32 + 5 := by
  decide

/-- The three cases of the data transaction, in and out of bounds. -/
theorem witness_DataTransactionGovernsMemory : (small 0#32 1#32 0#32 0#32 noFlags []).mem.wf = true ∧
    dataTransaction (.loadai 0#32) (small 0#32 1#32 0#32 0#32 noFlags []) = none ∧
    dataTransaction (.loadam 61#32) (small 0#32 1#32 0#32 0#32 noFlags []) = some (.read4 61#32) ∧
    dataTransaction (.stoream 60#32) (small 0#32 1#32 0#32 0#32 noFlags []) = some (.write4 60#32 1#32) ∧
    dataTransaction (.divint 60#32) (small 0#32 1#32 0#32 0#32 noFlags []) = none := by decide

/-- Each transaction at the last address where it completes (with its data), and one byte further. -/
theorem witness_PortTransactionsCompleteOrFault :
    (small 0#32 0#32 0#32 0#32 noFlags [(63, 7#8)]).mem.wf = true ∧
    ((small 0#32 0#32 0#32 0#32 noFlags [(63, 7#8)]).transact (.read1 63#32)).1 = .data1 7#8 ∧
    ((small 0#32 0#32 0#32 0#32 noFlags [(63, 7#8)]).transact (.read4 60#32)).1 = .data4 0x07000000#32 ∧
    ((small 0#32 0#32 0#32 0#32 noFlags [(63, 7#8)]).transact (.read5 59#32)).1 = .data5 0x0700000000#40 ∧
    ((small 0#32 0#32 0#32 0#32 noFlags []).transact (.write1 63#32 7#8)).2.mem.cells = [(63, 7#8)] ∧
    ((small 0#32 0#32 0#32 0#32 noFlags []).transact (.write4 60#32 0x07000000#32)).2.mem.cells = [(63, 7#8)] ∧
    ∀ t ∈ [Transaction.read1 64#32, .read4 61#32, .read5 60#32, .write1 64#32 7#8, .write4 61#32 7#32],
      (small 0#32 0#32 0#32 0#32 noFlags []).transact t = (.boundsFault, small 0#32 0#32 0#32 0#32 noFlags []) := by decide

/-- R45, R143: a halted machine issues nothing; a fetch that faults, an illegal opcode and a zero divisor issue the fetch
alone; a load that faults issues both. -/
theorem witness_StepIsItsTransactionsOneAtATime :
    (small 0#32 0#32 0#32 0#32 noFlags []).halt.exchanges = [] ∧
    (small 60#32 0#32 0#32 0#32 noFlags []).exchanges = [(.read5 60#32, .boundsFault)] ∧
    (small 0#32 0#32 0#32 0#32 noFlags []).exchanges = [(.read5 0#32, .data5 0#40)] ∧
    (small 0#32 0#32 0#32 0#32 noFlags [(0, 0x11#8)]).exchanges = [(.read5 0#32, .data5 0x11#40)] ∧
    (small 0#32 0#32 0#32 0#32 noFlags [(0, 0x04#8), (1, 61#8)]).exchanges =
      [(.read5 0#32, .data5 0x3D04#40), (.read4 61#32, .boundsFault)] ∧
    (after (small 0#32 0#32 0#32 0#32 noFlags [(0, 0x04#8), (1, 61#8)])).map (fun t => (t.status, t.faultCause)) =
      some (.faulted, 2#2) := by decide

/-- A run that ends, one that does not (a jump to itself), and one that starts at its end. -/
theorem witness_FinishedRunsAreStable :
    runFor 1 (small 0#32 0#32 0#32 0#32 noFlags [(0, 0x25#8)]) = .finished (small 0#32 0#32 0#32 0#32 noFlags [(0, 0x25#8)]).halt ∧
    runFor 3 (small 0#32 0#32 0#32 0#32 noFlags [(0, 0x19#8)]) = .notFinished (small 0#32 0#32 0#32 0#32 noFlags [(0, 0x19#8)]) ∧
    (small 0#32 0#32 0#32 0#32 noFlags []).halt.terminal := by decide

end Sys2Proof.Tests
end

-- ==== Sys2Proof/Proofs: the program counter ====
section
/-! The program counter stays inside 32 bits: the end of an access that lies in memory is an address or `N`, and `N` is
below `2^32` (R4), so adding its length to its address does not wrap. -/

namespace Sys2Proof.Machine

/-- The size `N` has a value of 32 bits (R4, decision D6). -/
theorem Memory.size_le (m : Memory) : m.size.val ≤ 2 ^ 32 - 1 :=
  Nat.le_sub_one_of_lt m.size.isLt

/-- A sum of words below `2^32` is the sum of their values (R6). -/
theorem uint_add_of_lt {v w : Word} (h : uint v + uint w < 2 ^ 32) : uint (v + w) = uint v + uint w :=
  BitVec.toNat_add_of_lt h

/-- The end of an access inside memory does not wrap (R4, R32). -/
theorem Memory.uint_add_of_inBounds {m : Memory} {addr w : Word} (h : m.inBounds addr (uint w)) :
    uint (addr + w) = uint addr + uint w :=
  uint_add_of_lt (Nat.lt_of_le_of_lt h m.size.isLt)

/-- Settles O18: the fetch lies inside memory, so its end does not wrap and is at most `N`. -/
theorem programCounterNeverWraps : Obligations.ProgramCounterNeverWraps := by
  unfold Obligations.ProgramCounterNeverWraps
  rintro s ⟨-, hfetch⟩
  have hpc : uint (s.pc + 5#32) = uint s.pc + 5 := Memory.uint_add_of_inBounds (w := 5#32) hfetch
  exact ⟨hpc, hpc.le.trans hfetch, s.mem.size_le⟩

end Sys2Proof.Machine
end

-- ==== Sys2Proof/Proofs: canonical memory ====
section
/-! A canonical memory is determined by its bytes: the first cell of a canonical list is the lowest address that reads as
anything but the byte of an unlisted address, so it can be read back, and the rest of the list by induction. -/

namespace Sys2Proof.Machine

/-- Canonical form of a list with a first cell, its four parts. -/
theorem wfCells_cons {n lo : Nat} {c : Host.Cell} {cs : List Host.Cell} : wfCells n lo (c :: cs) = true ↔
    lo ≤ c.1 ∧ c.1 < n ∧ c.2 ≠ Memory.unlistedByte ∧ wfCells n (c.1 + 1) cs = true := by
  simp [wfCells, and_assoc]

/-- The first cell is what its address reads as. -/
theorem readCells_head (c : Host.Cell) (cs : List Host.Cell) : readCells (c :: cs) c.1 = c.2 := by
  simp [readCells]

/-- Above the address of the first cell the rest of the list is read. -/
theorem readCells_tail {c : Host.Cell} {cs : List Host.Cell} {x : Nat} (hx : c.1 < x) :
    readCells (c :: cs) x = readCells cs x := by
  simp [readCells, show ¬ x < c.1 by omega, show x ≠ c.1 by omega]

/-- A list that reads at the first address of a canonical list as that list does has a cell at or below this address: the
byte there is not the one an unlisted address reads as. -/
theorem not_wfCells_above_head {n lo lo' : Nat} {c : Host.Cell} {cs cs' : List Host.Cell}
    (h : wfCells n lo (c :: cs) = true) (hr : readCells (c :: cs) c.1 = readCells cs' c.1) (hlo : c.1 < lo') :
    wfCells n lo' cs' ≠ true := by
  intro h'
  obtain ⟨-, -, hbyte, -⟩ := wfCells_cons.mp h
  rw [readCells_head, readCells_below h' hlo] at hr
  exact hbyte hr

/-- Two canonical lists with the same first address that read alike have the same first byte, and their tails read
alike. -/
theorem readCells_tails_agree {n : Nat} {c c' : Host.Cell} {cs cs' : List Host.Cell} (hc : c.1 = c'.1)
    (h : wfCells n (c.1 + 1) cs = true) (h' : wfCells n (c'.1 + 1) cs' = true)
    (hr : ∀ x, x < n → readCells (c :: cs) x = readCells (c' :: cs') x) :
    ∀ x, x < n → readCells cs x = readCells cs' x := by
  intro x hx
  by_cases hle : x ≤ c.1
  · rw [readCells_below h (by omega), readCells_below h' (by omega)]
  · have := hr x hx
    rwa [readCells_tail (by omega), readCells_tail (by omega)] at this

/-- Canonical cell lists that read alike below `n` are equal. -/
theorem wfCells_ext {n lo lo' : Nat} {cs cs' : List Host.Cell} (h : wfCells n lo cs = true)
    (h' : wfCells n lo' cs' = true) (hr : ∀ x, x < n → readCells cs x = readCells cs' x) : cs = cs' := by
  induction cs generalizing lo lo' cs' with
  | nil =>
    cases cs' with
    | nil => rfl
    | cons c' cs' =>
      obtain ⟨-, hn', -, -⟩ := wfCells_cons.mp h'
      exact absurd rfl (not_wfCells_above_head h' (hr c'.1 hn').symm (Nat.lt_succ_self _))
  | cons c cs ih =>
    obtain ⟨-, hn, -, ht⟩ := wfCells_cons.mp h
    cases cs' with
    | nil => exact absurd rfl (not_wfCells_above_head h (hr c.1 hn) (Nat.lt_succ_self _))
    | cons c' cs' =>
      obtain ⟨-, hn', hb', ht'⟩ := wfCells_cons.mp h'
      obtain hlt | heq | hgt := Nat.lt_trichotomy c.1 c'.1
      · exact absurd (wfCells_cons.mpr ⟨le_rfl, hn', hb', ht'⟩) (not_wfCells_above_head h (hr c.1 hn) hlt)
      · have hbyte : c.2 = c'.2 := by
          rw [← readCells_head c cs, ← readCells_head c' cs', ← heq]
          exact hr c.1 hn
        rw [Prod.ext heq hbyte, ih ht ht' (readCells_tails_agree heq ht ht' hr)]
      · obtain ⟨-, -, hb, -⟩ := wfCells_cons.mp h
        exact absurd (wfCells_cons.mpr ⟨le_rfl, hn, hb, ht⟩) (not_wfCells_above_head h' (hr c'.1 hn').symm hgt)

/-- Settles O25: the cells are equal because they read alike below the common size. -/
theorem canonicalMemoriesAreDeterminedByTheirBytes : Obligations.CanonicalMemoriesAreDeterminedByTheirBytes := by
  unfold Obligations.CanonicalMemoriesAreDeterminedByTheirBytes
  rintro ⟨n, cs⟩ ⟨n', cs'⟩ h h' rfl hr
  exact congrArg (Memory.mk n) (wfCells_ext h h' hr)

end Sys2Proof.Machine
end

-- ==== Sys2Proof/Proofs: the state invariant ====
section
/-! The invariant holds after reset and every step keeps it (R18, R20, R21, R24, R151). A step of a running machine either
raises, and then the record is one that R151 allows, or leaves the record of the running state as it is, which is zero. -/

namespace Sys2Proof.Machine

/-! ### The illegal opcode bytes -/

/-- The opcode map lists `0x01` to `0x25` in this order (R55). -/
theorem opcodeTable_opcodes : opcodeTable.map (·.opcode) = (List.range' 1 37).map (BitVec.ofNat 8) := rfl

/-- What the decoder rejects is the opcode byte `0x00` or one above the last row of the map (R56). -/
theorem decode_invalid_range {w : InstrWord} {opc : Byte} (h : decode w = .invalid opc) :
    opc = 0x00#8 ∨ 0x26 ≤ opc.toNat := by
  unfold decode at h
  cases hf : opcodeTable.find? (fun row => row.opcode == opcField w) with
  | some row => simp [hf] at h
  | none =>
    simp only [hf, Decoded.invalid.injEq] at h
    subst h
    by_contra hlegal
    rw [not_or] at hlegal
    obtain ⟨hzero, hmax⟩ := hlegal
    have hpos : (opcField w).toNat ≠ 0 := fun h0 => hzero (BitVec.eq_of_toNat_eq h0)
    have hmem : opcField w ∈ opcodeTable.map (·.opcode) := by
      rw [opcodeTable_opcodes]
      exact List.mem_map.mpr ⟨(opcField w).toNat, List.mem_range'_1.mpr (by omega), by simp⟩
    obtain ⟨row, hrow, hopc⟩ := List.mem_map.mp hmem
    exact List.find?_eq_none.mp hf row hrow (by simp [hopc])

/-! ### The fault record -/

/-- The record of a state that is not `Faulted` is zero (R20). -/
theorem State.faultRecordOk_of_not_faulted {s : State} (h : s.status ≠ .faulted) :
    s.faultRecordOk ↔ s.faultCause = 0#2 ∧ s.faultInfo = 0#32 := by
  rw [State.faultRecordOk, if_neg h]

/-- The record of `InvalidOpcode` (R151). -/
theorem State.faultRecordOk_invalidOpcode (s : State) {opc : Byte} (h : opc = 0x00#8 ∨ 0x26 ≤ opc.toNat) :
    (s.faultedWith 1#2 (opc.setWidth 32)).faultRecordOk := by
  have hval : (opc.setWidth 32).toNat = opc.toNat := BitVec.toNat_setWidth_of_le (by decide)
  have hmax := opc.isLt
  refine .inl ⟨rfl, h.imp (fun h0 => by rw [h0]; rfl) fun hlo => ?_⟩
  change 0x26 ≤ (opc.setWidth 32).toNat ∧ (opc.setWidth 32).toNat ≤ 0xFF
  omega

/-- The record of `MemoryFault`: five bytes do not fit at the address (R32, R151). -/
theorem State.faultRecordOk_memoryFault {s : State} {addr : Word} (h : s.mem.size.val < uint addr + 5) :
    (s.faultedWith 2#2 addr).faultRecordOk := .inr (.inl ⟨rfl, h⟩)

/-- The record of `ArithmeticFault` (R151). -/
theorem State.faultRecordOk_arithmeticFault (s : State) {info : Word} (h : info = 0#32 ∨ info = 1#32) :
    (s.faultedWith 3#2 info).faultRecordOk := .inr (.inr ⟨rfl, h⟩)

@[simp] theorem State.faultedWith_status (s : State) (cause : BitVec 2) (info : Word) :
    (s.faultedWith cause info).status = .faulted := rfl

/-! ### Every step keeps the invariant -/

/-- A compare leaves one of the values of R18. -/
theorem flagsOf_legal (rel : Relation) : (flagsOf rel).legal = true := by
  cases rel <;> rfl

/-- A fault keeps the invariant when its record is one of R151. -/
theorem State.Inv.faultedWith {s : State} (h : s.Inv) {cause : BitVec 2} {info : Word}
    (hr : (s.faultedWith cause info).faultRecordOk) : (s.faultedWith cause info).Inv :=
  ⟨h.memory, h.flags, hr⟩

/-- A step of a running machine that does not fault keeps the invariant when it leaves the record alone. -/
theorem State.Inv.of_record_kept {s t : State} (h : s.Inv) (hs : s.status = .running) (ht : t.status ≠ .faulted)
    (hmem : t.mem.wf = true) (hflags : t.flags.legal = true) (hcause : t.faultCause = s.faultCause)
    (hinfo : t.faultInfo = s.faultInfo) : t.Inv := by
  have hzero := (State.faultRecordOk_of_not_faulted (by simp [hs])).mp h.record
  exact ⟨hmem, hflags, (State.faultRecordOk_of_not_faulted ht).mpr (by rwa [hcause, hinfo])⟩

/-- An instruction has one next state. -/
theorem next_unique {i : Instr} {s t u : State} (ht : exec i s = .next t) (hu : exec i s = .next u) : t = u :=
  Host.Outcome.next.inj (ht.symm.trans hu)

/-- Every instruction executed in a running state keeps the invariant. -/
theorem exec_keeps_inv {i : Instr} {s t : State} (h : s.Inv) (hs : s.status = .running) (he : exec i s = .next t) :
    t.Inv := by
  cases exec_cases i s with
  | load d v _ _ _ _ hx =>
    obtain rfl := next_unique he hx
    exact h.of_record_kept hs (by simp [hs]) (by simpa using h.memory) (by simpa using h.flags) (by simp) (by simp)
  | compare rel _ _ _ hx =>
    obtain rfl := next_unique he hx
    exact h.of_record_kept hs (by simp [hs]) h.memory (flagsOf_legal rel) rfl rfl
  | taken target _ _ _ hx =>
    obtain rfl := next_unique he hx
    exact h.of_record_kept hs (by simp [hs]) h.memory h.flags rfl rfl
  | notTaken _ _ _ hx =>
    obtain rfl := next_unique he hx
    exact h.of_record_kept hs (by simp [hs]) h.memory h.flags rfl rfl
  | store addr v hb _ _ _ hx =>
    obtain rfl := next_unique he hx
    exact h.of_record_kept hs (by simp [hs]) (Memory.writeBytes_wf h.memory hb) h.flags rfl rfl
  | print e _ _ _ hx =>
    obtain rfl := next_unique he hx
    exact h.of_record_kept hs (by simp [hs]) h.memory h.flags rfl rfl
  | memoryFault addr hb _ _ hx =>
    obtain rfl := next_unique he hx
    exact h.faultedWith (State.faultRecordOk_memoryFault (by omega))
  | arithmeticFault info hf _ hx =>
    obtain rfl := next_unique he hx
    exact h.faultedWith (s.faultRecordOk_arithmeticFault hf)
  | halt v _ hx =>
    obtain rfl := next_unique he hx
    exact h.of_record_kept hs (by simp) h.memory h.flags rfl rfl

/-- Only a running machine has a next state (R143). -/
theorem running_of_step_next {s t : State} (h : step s = .next t) : s.status = .running := by
  unfold step at h
  cases hs : s.status with
  | running => rfl
  | halted => simp [hs] at h
  | faulted => simp [hs] at h

/-- Settles O12, by the ways a step of a running machine goes: a fault of the fetch or of the decoder, or an instruction. -/
theorem stepKeepsTheInvariant : Obligations.StepKeepsTheInvariant := by
  unfold Obligations.StepKeepsTheInvariant
  intro s t h hst
  have hs := running_of_step_next hst
  obtain ⟨hb, hx⟩ | ⟨w, -, -, ⟨opc, hd, hx⟩ | ⟨i, -, hx⟩⟩ := step_cases hs
  · obtain rfl := Host.Outcome.next.inj (hx.symm.trans hst)
    exact h.faultedWith (State.faultRecordOk_memoryFault hb)
  · obtain rfl := Host.Outcome.next.inj (hx.symm.trans hst)
    exact h.faultedWith (s.faultRecordOk_invalidOpcode (decode_invalid_range hd))
  · exact exec_keeps_inv h hs (hx.symm.trans hst)

/-! ### Reset -/

/-- The state of a launch, field by field (R24). -/
theorem State.boot_eq (m : Memory) : State.boot m =
    State.mk 0#32 0#32 0#32 0#32 ⟨false, false, false, false⟩ .running 0#2 0#32 m [] := rfl

/-- The register `FLAGS` of a launch (R16, R24). -/
theorem State.boot_flags_bits (m : Memory) : (State.boot m).flags.bits = 0b0000#4 := by
  change State.reset.flags.bits = 0b0000#4
  decide

/-- The launch over canonical memory meets the invariant: FLAGS and the fault record are zero (R24). -/
theorem State.boot_inv {m : Memory} (h : m.wf = true) : (State.boot m).Inv where
  memory := h
  flags := by simp [Flags.legal, State.boot_flags_bits]
  record := (State.faultRecordOk_of_not_faulted (by simp [State.boot_eq])).mpr ⟨rfl, rfl⟩

/-- Reset of a machine is a launch over the memory it has (R170). -/
theorem State.applyReset_eq_boot (s : State) : s.applyReset = State.boot s.mem := rfl

/-- Settles O13: each of the three states is a launch over a canonical memory. -/
theorem resetEstablishesTheInvariant : Obligations.ResetEstablishesTheInvariant :=
  ⟨State.boot_inv State.reset_mem_wf, fun _ h => State.boot_inv h,
    fun s h => by rw [State.applyReset_eq_boot]; exact State.boot_inv h⟩

/-- Settles O19: reset is a launch over the memory at hand, whose fields R24 names. -/
theorem resetRestoresEveryRegister : Obligations.ResetRestoresEveryRegister := by
  unfold Obligations.ResetRestoresEveryRegister
  intro s m
  rw [State.applyReset_eq_boot]
  exact ⟨State.boot_eq s.mem, State.boot_flags_bits s.mem, State.boot_eq m⟩

end Sys2Proof.Machine
end

-- ==== Sys2Proof/Proofs: flags, output and the program counter ====
section
/-! Who reads and writes FLAGS and OUT, and where `pc` goes (R14, R17, R22). To compare one instruction in two states that
differ in FLAGS and OUT, every instruction is given as a function of the whole state: it is blind to both fields, or a
compare, or a conditional jump. -/

namespace Sys2Proof.Machine

/-! ### Instructions that are blind to FLAGS and OUT -/

/-- FLAGS and OUT replaced, every other field as it is. -/
def State.withFlagsOut (s : State) (f : Flags) (o : List Event) : State := { s with flags := f, out := o }

@[simp] theorem State.withFlagsOut_flags (s : State) (f : Flags) (o : List Event) : (s.withFlagsOut f o).flags = f := rfl
@[simp] theorem State.withFlagsOut_out (s : State) (f : Flags) (o : List Event) : (s.withFlagsOut f o).out = o := rfl
@[simp] theorem State.withFlagsOut_mem (s : State) (f : Flags) (o : List Event) : (s.withFlagsOut f o).mem = s.mem := rfl

theorem State.withFlagsOut_eq_setFlags (s : State) (f : Flags) : s.withFlagsOut f s.out = s.setFlags f := rfl

theorem State.withFlagsOut_flags_self (s : State) (o : List Event) : s.withFlagsOut s.flags o = { s with out := o } := rfl

theorem State.withFlagsOut_self (s : State) : s.withFlagsOut s.flags s.out = s := rfl

/-- `m` completes in every state and appends at most one event; from a state with any other FLAGS and OUT it completes in
the same next state with those FLAGS and with the same event appended to that OUT. -/
def BlindToFlagsOut (m : State → Result) : Prop :=
  ∀ s, ∃ t es, m s = .next t ∧ es.length ≤ 1 ∧ ∀ f o, m (s.withFlagsOut f o) = .next (t.withFlagsOut f (o ++ es))

/-- What is blind to FLAGS and OUT keeps FLAGS and appends to OUT. -/
theorem eq_of_blind_next {m : State → Result} {s t : State} {es : List Event} (h : m s = .next t)
    (hblind : ∀ f o, m (s.withFlagsOut f o) = .next (t.withFlagsOut f (o ++ es))) :
    t.flags = s.flags ∧ t.out = s.out ++ es := by
  have heq : t = t.withFlagsOut s.flags (s.out ++ es) := by
    have := hblind s.flags s.out
    rw [State.withFlagsOut_self, h] at this
    exact Host.Outcome.next.inj this
  constructor
  · rw [heq, State.withFlagsOut_flags]
  · rw [heq, State.withFlagsOut_out]

/-- An update that commutes with a change of FLAGS and OUT. -/
theorem blindToFlagsOut_update {m : State → Result} {u : State → State} (hm : ∀ s, m s = .next (u s))
    (hu : ∀ s f o, u (s.withFlagsOut f o) = (u s).withFlagsOut f o) : BlindToFlagsOut m :=
  fun s => ⟨u s, [], hm s, Nat.zero_le 1, fun f o => by rw [hm, hu, List.append_nil]⟩

/-- A data access: what it does in bounds decides, for its fault looks at the address and at `N` only. -/
theorem blindToFlagsOut_access {m : State → Result} {u : State → State} {addr : Word}
    (hm : ∀ s, m s = .next (if uint addr + 4 ≤ s.mem.size.val then u s else s.faultedWith 2#2 addr))
    (hu : ∀ s, ∃ es : List Event, es.length ≤ 1 ∧ ∀ f o, u (s.withFlagsOut f o) = (u s).withFlagsOut f (o ++ es)) :
    BlindToFlagsOut m := by
  intro s
  by_cases hb : uint addr + 4 ≤ s.mem.size.val
  · obtain ⟨es, hlen, hes⟩ := hu s
    refine ⟨u s, es, by rw [hm, if_pos hb], hlen, fun f o => ?_⟩
    rw [hm, if_pos (by simpa using hb), hes]
  · refine ⟨s.faultedWith 2#2 addr, [], by rw [hm, if_neg hb], Nat.zero_le 1, fun f o => ?_⟩
    rw [hm, if_neg (by simpa using hb), List.append_nil]
    rfl

/-- A register write commutes with a change of FLAGS and OUT. -/
theorem State.setReg_withFlagsOut (s : State) (d : Reg) (v : Word) (f : Flags) (o : List Event) :
    (s.withFlagsOut f o).setReg d v = (s.setReg d v).withFlagsOut f o := by
  cases d <;> rfl

theorem blindToFlagsOut_loadImmediate (d : Reg) (v : Word) : BlindToFlagsOut fun s => .next (s.setReg d v).advance :=
  blindToFlagsOut_update (fun _ => rfl) fun s f o => by rw [State.setReg_withFlagsOut]; rfl

theorem blindToFlagsOut_loadWord (d : Reg) (addr : Word) : BlindToFlagsOut (loadWord d addr) :=
  blindToFlagsOut_access (loadWord_eq d addr) fun s =>
    ⟨[], Nat.zero_le 1, fun f o => by rw [List.append_nil, State.setReg_withFlagsOut]; rfl⟩

theorem blindToFlagsOut_storeWord (addr v : Word) : BlindToFlagsOut (storeWord addr v) :=
  blindToFlagsOut_access (storeWord_next addr v) fun s => ⟨[], Nat.zero_le 1, fun f o => by rw [List.append_nil]; rfl⟩

theorem blindToFlagsOut_storeResult (r : Except CoreFault Word) (d : Word) : BlindToFlagsOut (storeResult r d) := by
  cases r with
  | error e => exact blindToFlagsOut_update (storeResult_error e d) fun _ _ _ => rfl
  | ok v => exact blindToFlagsOut_storeWord d v

/-- A print is the one that appends an event. -/
theorem blindToFlagsOut_printWord (event : Word → Event) (addr : Word) : BlindToFlagsOut (printWord event addr) :=
  blindToFlagsOut_access (printWord_eq event addr) fun s => ⟨[event (s.mem.readWord (uint addr))], le_rfl, fun _ _ => rfl⟩

theorem blindToFlagsOut_jumpWhen (taken : Bool) (t : Word) : BlindToFlagsOut (jumpWhen taken t) :=
  blindToFlagsOut_update (jumpWhen_eq taken t) fun _ _ _ => rfl

theorem blindToFlagsOut_halt : BlindToFlagsOut execHlt :=
  blindToFlagsOut_update (fun _ => rfl) fun _ _ _ => rfl

/-! ### The three ways an instruction uses FLAGS -/

/-- How an instruction uses FLAGS, as a function of the state (R17). -/
inductive FlagsUse (i : Instr) : Prop
  /-- It neither reads nor writes them. -/
  | unused (hc : isCompare i = false) (hj : isConditionalJump i = false) (h : BlindToFlagsOut (exec i))
  /-- It writes all four from the relation of `A` to `B`. -/
  | written (hc : isCompare i = true) (rel : Word → Word → Relation)
      (h : ∀ s, exec i s = .next (s.setFlags (flagsOf (rel s.a s.b))).advance)
  /-- It reads them to decide a jump. -/
  | read (hc : isCompare i = false) (hj : isConditionalJump i = true) (target : Word) (test : Flags → Bool)
      (h : ∀ s, exec i s = jumpWhen (test s.flags) target s)

/-- Every instruction uses FLAGS in one of the three ways. -/
theorem exec_flagsUse (i : Instr) : FlagsUse i := by
  cases i with
  | loadai v => exact .unused rfl rfl (blindToFlagsOut_loadImmediate .a v)
  | loadbi v => exact .unused rfl rfl (blindToFlagsOut_loadImmediate .b v)
  | loadri v => exact .unused rfl rfl (blindToFlagsOut_loadImmediate .r v)
  | loadam a => exact .unused rfl rfl (blindToFlagsOut_loadWord .a a)
  | loadbm a => exact .unused rfl rfl (blindToFlagsOut_loadWord .b a)
  | loadrm a => exact .unused rfl rfl (blindToFlagsOut_loadWord .r a)
  | loadar _ => exact .unused rfl rfl fun s => blindToFlagsOut_loadWord .a s.r s
  | loadbr _ => exact .unused rfl rfl fun s => blindToFlagsOut_loadWord .b s.r s
  | stoream a => exact .unused rfl rfl fun s => blindToFlagsOut_storeWord a s.a s
  | storebm a => exact .unused rfl rfl fun s => blindToFlagsOut_storeWord a s.b s
  | storerm a => exact .unused rfl rfl fun s => blindToFlagsOut_storeWord a s.r s
  | storear _ => exact .unused rfl rfl fun s => blindToFlagsOut_storeWord s.r s.a s
  | storebr _ => exact .unused rfl rfl fun s => blindToFlagsOut_storeWord s.r s.b s
  | addint d => exact .unused rfl rfl fun s => blindToFlagsOut_storeResult (.ok (addInt s.a s.b)) d s
  | subint d => exact .unused rfl rfl fun s => blindToFlagsOut_storeResult (.ok (subInt s.a s.b)) d s
  | multint d => exact .unused rfl rfl fun s => blindToFlagsOut_storeResult (.ok (mulInt s.a s.b)) d s
  | divint d => exact .unused rfl rfl fun s => blindToFlagsOut_storeResult (divInt s.a s.b) d s
  | modint d => exact .unused rfl rfl fun s => blindToFlagsOut_storeResult (modInt s.a s.b) d s
  | addfloat d => exact .unused rfl rfl fun s => blindToFlagsOut_storeResult (.ok (addFloat s.a s.b)) d s
  | subfloat d => exact .unused rfl rfl fun s => blindToFlagsOut_storeResult (.ok (subFloat s.a s.b)) d s
  | multfloat d => exact .unused rfl rfl fun s => blindToFlagsOut_storeResult (.ok (mulFloat s.a s.b)) d s
  | divfloat d => exact .unused rfl rfl fun s => blindToFlagsOut_storeResult (.ok (divFloat s.a s.b)) d s
  | cmpint _ => exact .written rfl compareInt fun _ => rfl
  | cmpfloat _ => exact .written rfl compareFloat fun _ => rfl
  | jmp t => exact .unused rfl rfl (blindToFlagsOut_jumpWhen true t)
  | jeq t => exact .read rfl rfl t (·.eq) fun _ => rfl
  | jne t => exact .read rfl rfl t (·.ne) fun _ => rfl
  | jlt t => exact .read rfl rfl t (·.lt) fun _ => rfl
  | jle t => exact .read rfl rfl t (fun f => f.lt || f.eq) fun _ => rfl
  | jgt t => exact .read rfl rfl t (·.gt) fun _ => rfl
  | jge t => exact .read rfl rfl t (fun f => f.gt || f.eq) fun _ => rfl
  | printint a => exact .unused rfl rfl (blindToFlagsOut_printWord .int a)
  | printchar a => exact .unused rfl rfl (blindToFlagsOut_printWord (fun v => .char (v.extractLsb' 0 8)) a)
  | printfloat a => exact .unused rfl rfl (blindToFlagsOut_printWord .float a)
  | printrint _ => exact .unused rfl rfl fun s => blindToFlagsOut_printWord .int s.r s
  | printrfloat _ => exact .unused rfl rfl fun s => blindToFlagsOut_printWord .float s.r s
  | hlt _ => exact .unused rfl rfl blindToFlagsOut_halt

/-- Settles O16, by the three ways an instruction uses FLAGS. -/
theorem flagsWrittenByComparesReadByJumps : Obligations.FlagsWrittenByComparesReadByJumps := by
  unfold Obligations.FlagsWrittenByComparesReadByJumps
  intro i s f
  cases exec_flagsUse i with
  | unused hc _ hblind =>
    obtain ⟨t, es, hx, -, hes⟩ := hblind s
    obtain ⟨hflags, hout⟩ := eq_of_blind_next hx hes
    rw [if_neg (by simp [hc])]
    refine ⟨fun t' ht' => ?_, fun _ => ⟨t, hx, ?_⟩⟩
    · obtain rfl := Host.Outcome.next.inj (hx.symm.trans ht')
      exact hflags
    · rw [← State.withFlagsOut_eq_setFlags s, ← State.withFlagsOut_eq_setFlags t, hes, hout]
  | written hc rel hx =>
    rw [if_pos hc, hx, hx]
    rfl
  | read hc hj target test hx =>
    rw [if_neg (by simp [hc])]
    refine ⟨fun t ht => ?_, fun hnj => absurd (hj.symm.trans hnj) (by decide)⟩
    rw [hx, jumpWhen_eq] at ht
    obtain rfl := Host.Outcome.next.inj ht
    rfl

/-! ### OUT -/

/-- Every instruction completes, appends at most one event, and does the same over any other OUT. -/
theorem exec_appends_blindly (i : Instr) (s : State) : ∃ t es, exec i s = .next t ∧ es.length ≤ 1 ∧
    t.out = s.out ++ es ∧ ∀ o, exec i { s with out := o } = .next { t with out := o ++ es } := by
  cases exec_flagsUse i with
  | unused _ _ hblind =>
    obtain ⟨t, es, hx, hlen, hes⟩ := hblind s
    obtain ⟨hflags, hout⟩ := eq_of_blind_next hx hes
    refine ⟨t, es, hx, hlen, hout, fun o => ?_⟩
    rw [← State.withFlagsOut_flags_self s, ← State.withFlagsOut_flags_self t, hes, hflags]
  | written _ rel hx =>
    refine ⟨_, [], hx s, Nat.zero_le 1, (List.append_nil _).symm, fun o => ?_⟩
    rw [hx, List.append_nil]
    rfl
  | read _ _ target test hx =>
    refine ⟨_, [], (hx s).trans (jumpWhen_eq _ _ _), Nat.zero_le 1, (List.append_nil _).symm, fun o => ?_⟩
    rw [hx, jumpWhen_eq, List.append_nil]

/-- No instruction changes the size of memory (R4). -/
theorem exec_mem_size {i : Instr} {s t : State} (he : exec i s = .next t) : t.mem.size = s.mem.size := by
  cases exec_cases i s with
  | load d v _ _ _ _ hx => rw [next_unique he hx]; simp
  | compare _ _ _ _ hx => rw [next_unique he hx]; rfl
  | taken _ _ _ _ hx => rw [next_unique he hx]
  | notTaken _ _ _ hx => rw [next_unique he hx]; rfl
  | store _ _ _ _ _ _ hx => rw [next_unique he hx]; simp
  | print _ _ _ _ hx => rw [next_unique he hx]; rfl
  | memoryFault _ _ _ _ hx => rw [next_unique he hx]; rfl
  | arithmeticFault _ _ _ hx => rw [next_unique he hx]; rfl
  | halt _ _ hx => rw [next_unique he hx]; rfl

/-- A print that does not fault appends one event; every other instruction, and a print that faults, appends none
(R137). -/
theorem exec_out_cases {i : Instr} {s t : State} (hs : s.status = .running) (he : exec i s = .next t) :
    (isPrint i = true ∧ t.status = .running ∧ ∃ e, t.out = s.out ++ [e]) ∨
    (t.out = s.out ∧ (isPrint i = true → t.status ≠ .running)) := by
  cases exec_cases i s with
  | load d v _ hp _ _ hx => rw [next_unique he hx]; exact .inr ⟨by simp, by simp [hp]⟩
  | compare _ _ hp _ hx => rw [next_unique he hx]; exact .inr ⟨rfl, by simp [hp]⟩
  | taken _ hp _ _ hx => rw [next_unique he hx]; exact .inr ⟨rfl, by simp [hp]⟩
  | notTaken hp _ _ hx => rw [next_unique he hx]; exact .inr ⟨rfl, by simp [hp]⟩
  | store _ _ _ hp _ _ hx => rw [next_unique he hx]; exact .inr ⟨rfl, by simp [hp]⟩
  | print e hp _ _ hx => rw [next_unique he hx]; exact .inl ⟨hp, hs, e, rfl⟩
  | memoryFault _ _ _ _ hx => rw [next_unique he hx]; exact .inr ⟨rfl, fun _ => by simp⟩
  | arithmeticFault _ _ _ hx => rw [next_unique he hx]; exact .inr ⟨rfl, fun _ => by simp⟩
  | halt _ _ hx => rw [next_unique he hx]; exact .inr ⟨rfl, fun _ => by simp⟩

/-- The fetch looks at `pc` and memory only (R141). -/
theorem State.fetch_congr {s s' : State} (hpc : s'.pc = s.pc) (hmem : s'.mem = s.mem) : s'.fetch = s.fetch := by
  rw [State.fetch_eq, State.fetch_eq, hpc, hmem]

/-- Whether a step takes a fault before the execute phase, and which instruction it runs otherwise, is decided by STATE,
`pc` and memory alone (R141): all states that agree in these do the same. -/
theorem step_dispatch {s t : State} (h : step s = .next t) :
    (∃ f, t = s.raise f ∧
      ∀ s' : State, s'.status = s.status → s'.pc = s.pc → s'.mem = s.mem → step s' = .next (s'.raise f)) ∨
    (∃ i, exec i s = .next t ∧
      ∀ s' : State, s'.status = s.status → s'.pc = s.pc → s'.mem = s.mem → step s' = exec i s') := by
  have hs := running_of_step_next h
  cases hf : s.fetch with
  | error f =>
    have hstep (s' : State) (hst : s'.status = s.status) (hpc : s'.pc = s.pc) (hmem : s'.mem = s.mem) :
        step s' = .next (s'.raise f) := by
      rw [step_running (hst.trans hs), State.fetch_congr hpc hmem, hf]
    exact .inl ⟨f, Host.Outcome.next.inj (h.symm.trans (hstep s rfl rfl rfl)), hstep⟩
  | ok w =>
    cases hd : decode w with
    | invalid opc =>
      have hstep (s' : State) (hst : s'.status = s.status) (hpc : s'.pc = s.pc) (hmem : s'.mem = s.mem) :
          step s' = .next (s'.raise (.invalidOpcode opc)) := by
        simp only [step_running (hst.trans hs), State.fetch_congr hpc hmem, hf, hd]
      exact .inl ⟨_, Host.Outcome.next.inj (h.symm.trans (hstep s rfl rfl rfl)), hstep⟩
    | instr i =>
      have hstep (s' : State) (hst : s'.status = s.status) (hpc : s'.pc = s.pc) (hmem : s'.mem = s.mem) :
          step s' = exec i s' := by
        simp only [step_running (hst.trans hs), State.fetch_congr hpc hmem, hf, hd]
      exact .inr ⟨i, (hstep s rfl rfl rfl).symm.trans h, hstep⟩

/-- Settles O14: a fault before the execute phase leaves OUT alone, and an instruction appends blindly. -/
theorem outputOnlyGrowsAndIsNotRead : Obligations.OutputOnlyGrowsAndIsNotRead := by
  unfold Obligations.OutputOnlyGrowsAndIsNotRead
  refine ⟨fun s t h => ?_, fun i s t he hs => ?_, fun i s t he hp hs ht => ?_⟩
  · obtain ⟨f, rfl, hsame⟩ | ⟨i, he, hsame⟩ := step_dispatch h
    · refine ⟨rfl, [], Nat.zero_le 1, (List.append_nil _).symm, fun o => ?_⟩
      rw [hsame { s with out := o } rfl rfl rfl, List.append_nil]
      rfl
    · obtain ⟨t', es, hx, hlen, hout, hblind⟩ := exec_appends_blindly i s
      obtain rfl := next_unique he hx
      exact ⟨exec_mem_size he, es, hlen, hout, fun o => (hsame { s with out := o } rfl rfl rfl).trans (hblind o)⟩
  · exact (exec_out_cases hs he).symm.imp_left And.left
  · obtain ⟨-, -, hev⟩ | ⟨-, hstop⟩ := exec_out_cases hs he
    · exact hev
    · exact absurd ht (hstop hp)

/-! ### The program counter -/

/-- An instruction that leaves a running machine running sets `pc` to the target of a taken jump, or to `pc + 5`; one that
halts it or faults leaves `pc` (R14, R140, R154). -/
theorem exec_pc_cases {i : Instr} {s t : State} (hs : s.status = .running) (he : exec i s = .next t) :
    (t.status = .running ∧ t.pc = (jumpTarget i s.flags).getD (s.pc + 5#32)) ∨
    (t.status ≠ .running ∧ t.pc = s.pc) := by
  cases exec_cases i s with
  | load d v _ _ _ hj hx => rw [next_unique he hx, hj]; exact .inl ⟨by simpa using hs, by simp⟩
  | compare _ _ _ hj hx => rw [next_unique he hx, hj]; exact .inl ⟨hs, rfl⟩
  | taken _ _ _ hj hx => rw [next_unique he hx, hj]; exact .inl ⟨hs, rfl⟩
  | notTaken _ _ hj hx => rw [next_unique he hx, hj]; exact .inl ⟨hs, rfl⟩
  | store _ _ _ _ _ hj hx => rw [next_unique he hx, hj]; exact .inl ⟨hs, rfl⟩
  | print _ _ _ hj hx => rw [next_unique he hx, hj]; exact .inl ⟨hs, rfl⟩
  | memoryFault _ _ _ _ hx => rw [next_unique he hx]; exact .inr ⟨by simp, rfl⟩
  | arithmeticFault _ _ _ hx => rw [next_unique he hx]; exact .inr ⟨by simp, rfl⟩
  | halt _ _ hx => rw [next_unique he hx]; exact .inr ⟨by simp, rfl⟩

/-- Settles O17, by whether the machine still runs and whether a jump was taken. -/
theorem programCounterRule : Obligations.ProgramCounterRule := by
  unfold Obligations.ProgramCounterRule
  intro i s t hs he
  obtain ⟨hrun, hpc⟩ | ⟨hstop, hpc⟩ := exec_pc_cases hs he
  · rw [if_pos hrun, hpc]
    cases jumpTarget i s.flags with
    | none => rfl
    | some target => rfl
  · rwa [if_neg hstop]

end Sys2Proof.Machine
end

-- ==== Sys2Proof/Proofs: reads and writes of memory ====
section
/-! What the two primitives of the memory port answer, byte by byte (R33, R34, R35), and what a fetch sees of a store
(R43, R44). -/

namespace Sys2Proof.Machine

/-! ### The primitives -/

/-- The four bytes read in bounds make the word that they hold (R34). -/
theorem State.memRead4_of_holdsWord {s : State} {addr v : Word} (hb : uint addr + 4 ≤ s.mem.size.val)
    (h : s.mem.HoldsWord addr v) : s.memRead4 addr = .ok v := by
  rw [State.memRead4_eq, if_pos hb, Memory.readWord_of_holdsWord h]

/-- Settles O21, width by width: the bounds decide, and the value read is the one whose bytes stand at the address. -/
theorem memReadRule : Obligations.MemReadRule := by
  unfold Obligations.MemReadRule
  intro s addr
  rw [State.memRead1_eq, State.memRead4_eq, State.memRead5_eq]
  refine ⟨?_, ?_, ?_⟩
  · split
    · rfl
    · rfl
  · split
    · exact ⟨_, rfl, Memory.holdsWord_readWord _ _⟩
    · rfl
  · split
    · exact ⟨_, rfl, Memory.holdsInstr_readInstrWord _ _⟩
    · rfl

/-- Settles O22: the specifications of the two writes, each with its bounds. -/
theorem memWriteRule : Obligations.MemWriteRule := by
  unfold Obligations.MemWriteRule
  intro s addr v b hm
  constructor
  · obtain ⟨hb, hwrites⟩ | ⟨hb, hfault⟩ := State.memWrite1_spec (addr := addr) (b := b) hm
    · rwa [if_pos hb]
    · rwa [if_neg (by omega)]
  · obtain ⟨hb, hwrites⟩ | ⟨hb, hfault⟩ := State.memWrite4_spec (addr := addr) (v := v) hm
    · rwa [if_pos hb]
    · rwa [if_neg (by omega)]

/-! ### Byte order -/

/-- The address after one that lies in memory does not wrap (R32). -/
theorem Memory.uint_succ_of_lt {m : Memory} {addr : Word} (h : uint addr < m.size.val) :
    uint (addr + 1#32) = uint addr + 1 :=
  Memory.uint_add_of_inBounds (w := 1#32) (m := m) h

/-- The word one byte above a word: its lower three bytes are the upper three of that word (R33). -/
theorem Memory.holdsWord_succ {m : Memory} {addr v : Word} (h : m.HoldsWord addr v)
    (hb : uint addr + 5 ≤ m.size.val) :
    m.HoldsWord (addr + 1#32) (m.readByte (uint addr + 4) ++ v.extractLsb' 8 24) := by
  intro k hk
  rw [Memory.uint_succ_of_lt (m := m) (by omega)]
  obtain hlow | rfl : k < 3 ∨ k = 3 := by omega
  · rw [Nat.add_assoc, h (1 + k) (by omega)]
    ext j hj
    simp only [BitVec.getElem_extractLsb', BitVec.getLsbD_append, BitVec.getLsbD_extractLsb']
    rw [if_pos (by omega), decide_eq_true (by omega), Bool.true_and]
    congr 1
    omega
  · ext j hj
    simp only [BitVec.getElem_extractLsb', BitVec.getLsbD_append]
    rw [if_neg (by omega), show 8 * 3 + j - 24 = j by omega, BitVec.getLsbD_eq_getElem hj]

/-- Settles O20: the word written is held at its address, so it is read back there and, one byte above, its upper bytes;
the fetch answers the bytes at `pc`. -/
theorem littleEndianMemory : Obligations.LittleEndianMemory := by
  unfold Obligations.LittleEndianMemory
  refine ⟨fun s a v hm hb => ?_, fun s hb => ?_⟩
  · obtain ⟨-, t, hwrite, -, hsize, -, hword, hframe⟩ | ⟨hout, -⟩ := State.memWrite4_spec (addr := a) (v := v) hm
    · refine ⟨t, hwrite, hword, State.memRead4_of_holdsWord (by rwa [hsize]) hword, fun hb5 => ?_⟩
      rw [← hsize] at hb5
      have haddr : uint (a + 1#32) = uint a + 1 := Memory.uint_succ_of_lt (m := t.mem) (by omega)
      rw [← hframe (uint a + 4) (.inr le_rfl)]
      exact State.memRead4_of_holdsWord (by omega) (Memory.holdsWord_succ hword hb5)
    · omega
  · exact ⟨_, by rw [State.fetch_eq, if_pos hb], Memory.holdsInstr_readInstrWord _ _⟩

/-! ### A store and the next fetch -/

/-- What every byte reads as after a store: the byte of the value where the store reached, the old byte elsewhere
(R38). -/
theorem StoresOnly.readByte_eq {s t : State} {addr v : Word} (h : StoresOnly s t addr v) (x : Nat) :
    t.mem.readByte x =
      if uint addr ≤ x ∧ x < uint addr + 4 then v.extractLsb' (8 * (x - uint addr)) 8 else s.mem.readByte x := by
  obtain ⟨-, -, -, hword, hframe⟩ := h
  split
  · rename_i hin
    rw [← hword (x - uint addr) (by omega), Nat.add_sub_cancel' hin.1]
  · exact hframe x (by omega)

/-- Settles O23: the fetch answers the bytes that stand at `pc` after the store. -/
theorem storeIsSeenByTheNextFetch : Obligations.StoreIsSeenByTheNextFetch := by
  unfold Obligations.StoreIsSeenByTheNextFetch
  intro s t addr v hst hb
  refine ⟨_, by rw [State.fetch_eq, if_pos hb], fun k hk => ?_⟩
  rw [← Memory.holdsInstr_readInstrWord t.mem t.pc k hk, hst.readByte_eq]

end Sys2Proof.Machine
end

-- ==== Sys2Proof/Proofs: the transactions of the port ====
section
/-! One transaction by its kind and width (R34, R35, R45); the one data access of an instruction, which decides its memory
and its `MemoryFault` (R37); and the step as its fetch followed by that access (R141). -/

namespace Sys2Proof.Machine

/-! ### One transaction -/

/-- Out of bounds every transaction is the bounds fault, and changes nothing (R32). -/
theorem State.transact_outOfBounds {s : State} {t : Transaction} (h : s.mem.size.val < uint t.addr + t.width) :
    s.transact t = (.boundsFault, s) := by
  have hout : ¬ uint t.addr + t.width ≤ s.mem.size.val := by omega
  cases t with
  | read1 addr => exact (s.transact_read1 addr).trans (congrArg (·, s) (if_neg hout))
  | read4 addr => exact (s.transact_read4 addr).trans (congrArg (·, s) (if_neg hout))
  | read5 addr => exact (s.transact_read5 addr).trans (congrArg (·, s) (if_neg hout))
  | write1 addr b => exact (s.transact_write1 addr b).trans (if_neg hout)
  | write4 addr v => exact (s.transact_write4 addr v).trans (if_neg hout)

/-- The bounds decide which transactions are the bounds fault (R32). -/
theorem State.transact_boundsFault_iff {s : State} {t : Transaction} :
    (s.transact t).1 = .boundsFault ↔ s.mem.size.val < uint t.addr + t.width := by
  cases t with
  | read1 addr => simp [State.transact_read1, Transaction.addr, Transaction.width]
  | read4 addr => simp [State.transact_read4, Transaction.addr, Transaction.width]
  | read5 addr => simp [State.transact_read5, Transaction.addr, Transaction.width]
  | write1 addr b => simp [State.transact_write1, Transaction.addr, Transaction.width, apply_ite Prod.fst]
  | write4 addr v => simp [State.transact_write4, Transaction.addr, Transaction.width, apply_ite Prod.fst]

/-- A write of one byte that completes (R35). -/
theorem State.transact_write1_of_ok {s t : State} {addr : Word} {b : Byte} (h : s.memWrite1 addr b = .ok t) :
    s.transact (.write1 addr b) = (.written, t) := by
  rw [State.transact, h, writeOutcome]

/-- A write of four bytes that completes (R35). -/
theorem State.transact_write4_of_ok {s t : State} {addr v : Word} (h : s.memWrite4 addr v = .ok t) :
    s.transact (.write4 addr v) = (.written, t) := by
  rw [State.transact, h, writeOutcome]

/-- A transaction names 1, 4 or 5 bytes (R45). -/
theorem Transaction.width_mem (t : Transaction) : t.width ∈ [1, 4, 5] := by
  cases t <;> simp [Transaction.width]

/-- Settles O57: out of bounds the bounds fault; in bounds the read answers the bytes, and the write is the primitive's. -/
theorem portTransactionsCompleteOrFault : Obligations.PortTransactionsCompleteOrFault := by
  unfold Obligations.PortTransactionsCompleteOrFault
  intro s t hm
  refine ⟨t.width_mem, ?_⟩
  split
  · rename_i hin
    cases t with
    | read1 addr => exact (s.transact_read1 addr).trans (congrArg (·, s) (if_pos hin))
    | read4 addr =>
      exact ⟨_, s.mem.holdsWord_readWord addr, (s.transact_read4 addr).trans (congrArg (·, s) (if_pos hin))⟩
    | read5 addr =>
      exact ⟨_, s.mem.holdsInstr_readInstrWord addr, (s.transact_read5 addr).trans (congrArg (·, s) (if_pos hin))⟩
    | write1 addr b =>
      obtain ⟨-, u, hwrite, hspec⟩ | ⟨hout, -⟩ := State.memWrite1_spec (addr := addr) (b := b) hm
      · exact ⟨u, State.transact_write1_of_ok hwrite, hspec⟩
      · exact absurd hin (Nat.not_le_of_lt hout)
    | write4 addr v =>
      obtain ⟨-, u, hwrite, hspec⟩ | ⟨hout, -⟩ := State.memWrite4_spec (addr := addr) (v := v) hm
      · exact ⟨u, State.transact_write4_of_ok hwrite, hspec⟩
      · exact absurd hin (Nat.not_le_of_lt hout)
  · rename_i hout
    exact State.transact_outOfBounds (by omega)

/-! ### The data access of an instruction -/

/-- From `s` to `t` no `MemoryFault` is taken: where `t` has the record of one, `s` was `Faulted` already. -/
def TakesNoMemoryFault (s t : State) : Prop := t.status = .faulted → t.faultCause = 2#2 → s.status = .faulted

/-- What keeps STATE takes no fault. -/
theorem TakesNoMemoryFault.of_status {s t : State} (h : t.status = s.status) : TakesNoMemoryFault s t :=
  fun hf _ => h.symm.trans hf

/-- What leaves another fault record takes no `MemoryFault`. -/
theorem TakesNoMemoryFault.of_cause {s t : State} (h : t.faultCause ≠ 2#2) : TakesNoMemoryFault s t :=
  fun _ hc => absurd hc h

/-- `Accesses s access result`: from `s` the instruction answers `result`, and `access` is its data access (R37). -/
inductive Accesses (s : State) : Option Transaction → Result → Prop
  /-- No data access: memory is as before. -/
  | none {t : State} (hmem : t.mem = s.mem) (hq : TakesNoMemoryFault s t) : Accesses s none (.next t)
  /-- A read, whose address decides the fault. -/
  | read {addr : Word} {t : State} (hmem : t.mem = s.mem) (hq : TakesNoMemoryFault s t) :
      Accesses s (some (.read4 addr))
        (.next (if uint addr + 4 ≤ s.mem.size.val then t else s.faultedWith 2#2 addr))
  /-- A store. -/
  | write (addr v : Word) : Accesses s (some (.write4 addr v)) (storeWord addr v s)

theorem accesses_loadImmediate (d : Reg) (v : Word) (s : State) : Accesses s none (.next (s.setReg d v).advance) :=
  .none (by simp) (.of_status (by simp))

theorem accesses_loadWord (d : Reg) (addr : Word) (s : State) :
    Accesses s (some (.read4 addr)) (loadWord d addr s) := by
  rw [loadWord_eq]
  exact .read (by simp) (.of_status (by simp))

theorem accesses_printWord (event : Word → Event) (addr : Word) (s : State) :
    Accesses s (some (.read4 addr)) (printWord event addr s) := by
  rw [printWord_eq]
  exact .read rfl (.of_status rfl)

theorem accesses_jumpWhen (taken : Bool) (t : Word) (s : State) : Accesses s none (jumpWhen taken t s) := by
  rw [jumpWhen_eq]
  exact .none rfl (.of_status rfl)

/-- An operation of the divider issues its store unless it faults first, and its fault is no `MemoryFault` (R153). -/
theorem accesses_divider {res : Except CoreFault Word}
    (hr : (∃ v, res = .ok v) ∨ res = .error .divisionByZero ∨ res = .error .divideOverflow) (d : Word) (s : State) :
    Accesses s (resultTransaction res d) (storeResult res d s) := by
  obtain ⟨v, rfl⟩ | rfl | rfl := hr
  · exact .write d v
  · exact .none rfl (.of_cause (by simp [CoreFault.cause]))
  · exact .none rfl (.of_cause (by simp [CoreFault.cause]))

/-- The table of R37: every instruction makes the data access that `dataTransaction` gives it. -/
theorem exec_accesses (i : Instr) (s : State) : Accesses s (dataTransaction i s) (exec i s) := by
  cases i with
  | loadai v => exact accesses_loadImmediate .a v s
  | loadbi v => exact accesses_loadImmediate .b v s
  | loadri v => exact accesses_loadImmediate .r v s
  | loadam a => exact accesses_loadWord .a a s
  | loadbm a => exact accesses_loadWord .b a s
  | loadrm a => exact accesses_loadWord .r a s
  | loadar _ => exact accesses_loadWord .a s.r s
  | loadbr _ => exact accesses_loadWord .b s.r s
  | stoream a => exact .write a s.a
  | storebm a => exact .write a s.b
  | storerm a => exact .write a s.r
  | storear _ => exact .write s.r s.a
  | storebr _ => exact .write s.r s.b
  | addint d => exact .write d (addInt s.a s.b)
  | subint d => exact .write d (subInt s.a s.b)
  | multint d => exact .write d (mulInt s.a s.b)
  | divint d => exact accesses_divider (divInt_cases s.a s.b) d s
  | modint d => exact accesses_divider (modInt_cases s.a s.b) d s
  | addfloat d => exact .write d (addFloat s.a s.b)
  | subfloat d => exact .write d (subFloat s.a s.b)
  | multfloat d => exact .write d (mulFloat s.a s.b)
  | divfloat d => exact .write d (divFloat s.a s.b)
  | cmpint _ => exact .none rfl (.of_status rfl)
  | cmpfloat _ => exact .none rfl (.of_status rfl)
  | jmp t => exact accesses_jumpWhen true t s
  | jeq t => exact accesses_jumpWhen s.flags.eq t s
  | jne t => exact accesses_jumpWhen s.flags.ne t s
  | jlt t => exact accesses_jumpWhen s.flags.lt t s
  | jle t => exact accesses_jumpWhen (s.flags.lt || s.flags.eq) t s
  | jgt t => exact accesses_jumpWhen s.flags.gt t s
  | jge t => exact accesses_jumpWhen (s.flags.gt || s.flags.eq) t s
  | printint a => exact accesses_printWord .int a s
  | printchar a => exact accesses_printWord (fun v => .char (v.extractLsb' 0 8)) a s
  | printfloat a => exact accesses_printWord .float a s
  | printrint _ => exact accesses_printWord .int s.r s
  | printrfloat _ => exact accesses_printWord .float s.r s
  | hlt _ => exact .none rfl (fun h _ => absurd h (by simp))

/-- Settles O55, by the kind of the data access. -/
theorem dataTransactionGovernsMemory : Obligations.DataTransactionGovernsMemory := by
  unfold Obligations.DataTransactionGovernsMemory
  intro i s hm
  have haccess := exec_accesses i s
  generalize dataTransaction i s = access at haccess ⊢
  generalize exec i s = result at haccess ⊢
  cases haccess with
  | none hmem _ => exact ⟨_, rfl, hmem⟩
  | @read addr t hmem _ =>
    by_cases hin : uint addr + 4 ≤ s.mem.size.val
    · exact ⟨t, by rw [if_pos hin], hmem, fun hout => by omega⟩
    · exact ⟨s.faultedWith 2#2 addr, by rw [if_neg hin], rfl, fun _ => rfl⟩
  | write addr v =>
    obtain ⟨hin, t, hx, hstores⟩ | ⟨hout, hx⟩ := storeWord_spec (addr := addr) (v := v) hm
    · exact ⟨t, hx, fun _ => hstores, fun hout => by omega⟩
    · exact ⟨_, hx, fun hin => by omega, fun _ => rfl⟩

/-! ### A step and its exchanges -/

/-- Every data access is four bytes wide (R37). -/
theorem Accesses.width_eq {s : State} {a : Transaction} {result : Result} (h : Accesses s (some a) result) :
    a.width = 4 := by
  cases h with
  | read _ _ => rfl
  | write _ _ => rfl

/-- What `access` decides about the next state `t` of a running machine: the `MemoryFault` that it is, that no other is
taken, and the memory. -/
structure DecidedBy (s : State) (access : Option Transaction) (t : State) : Prop where
  fault   : ∀ a ∈ access, (s.transact a).1 = .boundsFault → t = s.faultedWith 2#2 a.addr
  noOther : t.status = .faulted → t.faultCause = 2#2 →
    ∃ a ∈ access, (s.transact a).1 = .boundsFault ∧ t.faultInfo = a.addr
  memory  : t.mem = (access.elim s fun a => (s.transact a).2).mem

/-- A data access that lies outside memory decides the step: it is the fault that is raised. -/
theorem DecidedBy.of_outOfBounds {s : State} {a : Transaction} (h : s.mem.size.val < uint a.addr + a.width) :
    DecidedBy s (some a) (s.faultedWith 2#2 a.addr) where
  fault   := by rintro _ ⟨⟩ _; rfl
  noOther _ _ := ⟨a, rfl, State.transact_boundsFault_iff.mpr h, rfl⟩
  memory  := by rw [Option.elim_some, State.transact_outOfBounds h]; rfl

/-- A data access that completes decides the memory, and no `MemoryFault` is taken. -/
theorem DecidedBy.of_inBounds {s t : State} {a : Transaction} (h : uint a.addr + a.width ≤ s.mem.size.val)
    (hs : s.status = .running) (hq : TakesNoMemoryFault s t) (hmem : t.mem = (s.transact a).2.mem) :
    DecidedBy s (some a) t where
  fault   := by
    rintro _ ⟨⟩ hf
    exact absurd h (Nat.not_le_of_lt (State.transact_boundsFault_iff.mp hf))
  noOther hf hc := absurd ((hq hf hc).symm.trans hs) (by decide)
  memory  := hmem

/-- The data access of an instruction decides its step. -/
theorem Accesses.decides {s : State} {access : Option Transaction} {result : Result} (h : Accesses s access result)
    (hs : s.status = .running) : ∃ t, result = .next t ∧ DecidedBy s access t := by
  cases h with
  | @none t hmem hq =>
    exact ⟨t, rfl, nofun, fun hf hc => absurd ((hq hf hc).symm.trans hs) (by decide), hmem⟩
  | @read addr t hmem hq =>
    refine ⟨_, rfl, ?_⟩
    split
    · rename_i hin
      exact .of_inBounds hin hs hq hmem
    · rename_i hout
      exact .of_outOfBounds (a := .read4 addr) (Nat.lt_of_not_le hout)
  | write addr v =>
    rw [storeWord_next]
    refine ⟨_, rfl, ?_⟩
    split
    · rename_i hin
      exact .of_inBounds hin hs (.of_status rfl) (by rw [State.transact_write4, if_pos hin])
    · rename_i hout
      exact .of_outOfBounds (a := .write4 addr v) (Nat.lt_of_not_le hout)

/-- The exchanges of a step after its fetch: the data access, if any, with its outcome. -/
def State.dataExchanges (s : State) (access : Option Transaction) : List (Transaction × PortOutcome) :=
  access.toList.map fun a => (a, (s.transact a).1)

theorem State.mem_dataExchanges {s : State} {access : Option Transaction} {e : Transaction × PortOutcome} :
    e ∈ s.dataExchanges access ↔ ∃ a ∈ access, (a, (s.transact a).1) = e := by
  simp only [State.dataExchanges, List.mem_map, Option.mem_toList, Option.mem_def]

theorem State.dataExchanges_length_le (s : State) (access : Option Transaction) :
    (s.dataExchanges access).length ≤ 1 := by
  cases access with
  | none => exact Nat.zero_le 1
  | some _ => exact le_rfl

/-- A machine that is not running issues nothing (R143). -/
theorem State.exchanges_of_not_running (s : State) (h : s.status ≠ .running) : s.exchanges = [] := by
  obtain ⟨-, hex⟩ | ⟨hs, -⟩ | ⟨⟨hs, -⟩, -⟩ := s.exchanges_cases
  · exact hex
  · exact absurd hs h
  · exact absurd hs h

/-- A step of a running machine is its fetch alone, out of bounds; or the fetch completed, and then the data access, if
any, is that of the instruction fetched (R37, R141). -/
theorem step_accesses {s : State} (hs : s.status = .running) :
    (s.mem.size.val < uint s.pc + 5 ∧ s.exchanges = [(.read5 s.pc, .boundsFault)] ∧
      step s = .next (s.faultedWith 2#2 s.pc)) ∨
    ∃ w access, (s.transact (.read5 s.pc)).1 = .data5 w ∧
      s.exchanges = (.read5 s.pc, .data5 w) :: s.dataExchanges access ∧
      (∀ a ∈ access, ∃ i, decode w = .instr i ∧ dataTransaction i s = some a) ∧
      Accesses s access (step s) := by
  obtain ⟨hstop, -⟩ | ⟨-, hout, hex⟩ | ⟨⟨-, hin⟩, w, hw, hcase⟩ := s.exchanges_cases
  · exact absurd hs hstop
  · refine .inl ⟨hout, hex, ?_⟩
    rw [step_running hs, State.fetch_eq, if_neg (by omega)]
    rfl
  · have hfetch := State.fetch_of_holdsInstr hin hw
    have hdata : (s.transact (.read5 s.pc)).1 = .data5 w := by
      rw [State.transact_read5, if_pos hin, Memory.readInstrWord_of_holdsInstr hw]
    obtain ⟨opc, hd, hex⟩ | ⟨i, hd, hex⟩ := hcase
    · have hstep : step s = .next (s.raise (.invalidOpcode opc)) := by
        simp only [step_running hs, hfetch, hd]
      exact .inr ⟨w, none, hdata, hex, nofun, hstep ▸ .none rfl (.of_cause (by simp [CoreFault.cause]))⟩
    · have hstep : step s = exec i s := by simp only [step_running hs, hfetch, hd]
      exact .inr ⟨w, _, hdata, hex, fun a ha => ⟨i, hd, ha⟩, hstep ▸ exec_accesses i s⟩

/-- What the exchanges after a fetch that completed carry out is the data access. -/
theorem State.foldl_dataExchanges (s : State) (w : InstrWord) (access : Option Transaction) :
    ((.read5 s.pc, .data5 w) :: s.dataExchanges access).foldl (fun u e => (u.transact e.1).2) s =
      access.elim s fun a => (s.transact a).2 := by
  cases access with
  | none => rfl
  | some _ => rfl

/-- Settles O58: the fetch of a running machine either is the bounds fault itself, or leaves the step to the data access. -/
theorem stepIsItsTransactionsOneAtATime : Obligations.StepIsItsTransactionsOneAtATime := by
  unfold Obligations.StepIsItsTransactionsOneAtATime
  intro s
  refine ⟨s.exchanges_of_not_running, fun hs => ?_⟩
  obtain ⟨hout, hex, hstep⟩ | ⟨w, access, hdata, hex, hinstr, haccess⟩ := step_accesses hs
  · rw [hex, hstep]
    refine ⟨⟨_, [], rfl, ?_, Nat.zero_le 1, nofun⟩, _, rfl, ?_, ?_, rfl⟩
    · exact (State.transact_boundsFault_iff.mpr hout).symm
    · rintro e he -
      rw [List.mem_singleton.mp he]
      rfl
    · exact fun _ _ => ⟨_, List.mem_singleton_self _, rfl, rfl⟩
  · obtain ⟨t, hstep, hdecided⟩ := haccess.decides hs
    rw [hex, hstep]
    refine ⟨⟨_, _, rfl, hdata.symm, s.dataExchanges_length_le access, ?_⟩, t, rfl, ?_, ?_, ?_⟩
    · intro e he
      obtain ⟨a, rfl, rfl⟩ := State.mem_dataExchanges.mp he
      obtain ⟨i, hd, hi⟩ := hinstr a rfl
      exact ⟨rfl, haccess.width_eq, w, i, rfl, hd, hi⟩
    · intro e he hf
      obtain rfl | he := List.mem_cons.mp he
      · cases hf
      · obtain ⟨a, ha, rfl⟩ := State.mem_dataExchanges.mp he
        exact hdecided.fault a ha hf
    · intro hf hc
      obtain ⟨a, ha, hbound, hinfo⟩ := hdecided.noOther hf hc
      exact ⟨_, List.mem_cons_of_mem _ (State.mem_dataExchanges.mpr ⟨a, ha, rfl⟩), hbound, hinfo⟩
    · rw [State.foldl_dataExchanges, hdecided.memory]

end Sys2Proof.Machine
end

-- ==== Sys2Proof/Proofs: decoder and encoder ====
section
/-! The decoder and the encoder are inverse (R51 to R57). Everything rests on two facts about the opcode map: the row
that the opcode of an instruction selects builds this instruction from its operand field, and every row builds
instructions with its own opcode and the operand field it is given. -/

namespace Sys2Proof

open Machine

/-! ### The fields of an instruction word -/

/-- The word is the operand field above the opcode byte (R51). -/
theorem immField_append_opcField (w : InstrWord) : immField w ++ opcField w = w :=
  BitVec.extractLsb'_append_extractLsb'

@[simp] theorem opcField_encode (i : Instr) : opcField (encode i) = i.opcode :=
  BitVec.extractLsb'_append_eq_right

@[simp] theorem immField_encode (i : Instr) : immField (encode i) = i.imm :=
  BitVec.extractLsb'_append_eq_left

/-- The bits of an encoding from bit 8 on are those of the operand field (R51). -/
theorem extractLsb'_encode (i : Instr) {start len : Nat} (h : 8 ≤ start) :
    (encode i).extractLsb' start len = i.imm.extractLsb' (start - 8) len :=
  BitVec.extractLsb'_append_eq_of_le h

/-- An encoding is the opcode byte and then the operand field, low byte first (R57). -/
theorem encodeBytes_eq (i : Instr) : encodeBytes i = opcodeThenOperand i.opcode i.imm := by
  have hopc : (encode i).extractLsb' 0 8 = i.opcode := opcField_encode i
  simp [encodeBytes, bytesOfInstrWord, opcodeThenOperand, hopc, extractLsb'_encode]

/-! ### The rows of the opcode map -/

/-- Every instruction is the one its row of the opcode map builds. -/
theorem Laws.OpcodeRow.all : ∀ i : Instr, Laws.OpcodeRow.Statement i
  | .loadai imm => Laws.OpcodeRow.loadai imm
  | .loadbi imm => Laws.OpcodeRow.loadbi imm
  | .loadri imm => Laws.OpcodeRow.loadri imm
  | .loadam imm => Laws.OpcodeRow.loadam imm
  | .loadbm imm => Laws.OpcodeRow.loadbm imm
  | .loadrm imm => Laws.OpcodeRow.loadrm imm
  | .loadar imm => Laws.OpcodeRow.loadar imm
  | .loadbr imm => Laws.OpcodeRow.loadbr imm
  | .stoream imm => Laws.OpcodeRow.stoream imm
  | .storebm imm => Laws.OpcodeRow.storebm imm
  | .storerm imm => Laws.OpcodeRow.storerm imm
  | .storear imm => Laws.OpcodeRow.storear imm
  | .storebr imm => Laws.OpcodeRow.storebr imm
  | .addint imm => Laws.OpcodeRow.addint imm
  | .subint imm => Laws.OpcodeRow.subint imm
  | .multint imm => Laws.OpcodeRow.multint imm
  | .divint imm => Laws.OpcodeRow.divint imm
  | .modint imm => Laws.OpcodeRow.modint imm
  | .addfloat imm => Laws.OpcodeRow.addfloat imm
  | .subfloat imm => Laws.OpcodeRow.subfloat imm
  | .multfloat imm => Laws.OpcodeRow.multfloat imm
  | .divfloat imm => Laws.OpcodeRow.divfloat imm
  | .cmpint imm => Laws.OpcodeRow.cmpint imm
  | .cmpfloat imm => Laws.OpcodeRow.cmpfloat imm
  | .jmp imm => Laws.OpcodeRow.jmp imm
  | .jeq imm => Laws.OpcodeRow.jeq imm
  | .jne imm => Laws.OpcodeRow.jne imm
  | .jlt imm => Laws.OpcodeRow.jlt imm
  | .jle imm => Laws.OpcodeRow.jle imm
  | .jgt imm => Laws.OpcodeRow.jgt imm
  | .jge imm => Laws.OpcodeRow.jge imm
  | .printint imm => Laws.OpcodeRow.printint imm
  | .printchar imm => Laws.OpcodeRow.printchar imm
  | .printfloat imm => Laws.OpcodeRow.printfloat imm
  | .printrint imm => Laws.OpcodeRow.printrint imm
  | .printrfloat imm => Laws.OpcodeRow.printrfloat imm
  | .hlt imm => Laws.OpcodeRow.hlt imm

/-- The mnemonic of a row of the opcode map (R55). -/
def OpcodeRow.mnemonic (row : OpcodeRow) : String := (row.build 0#32).mnemonic

/-- What a row builds has the opcode and the mnemonic of the row and the operand field it is given (R51, R55). -/
theorem OpcodeRow.build_fields : ∀ row ∈ opcodeTable, ∀ v : Word,
    (row.build v).opcode = row.opcode ∧ (row.build v).mnemonic = row.mnemonic ∧ (row.build v).imm = v := by
  simp [opcodeTable, OpcodeRow.mnemonic, Instr.opcode, Instr.mnemonic, Instr.imm]

/-- Every instruction comes from a row of the map, the one that a search for its opcode finds. -/
theorem Instr.exists_row (i : Instr) : ∃ row ∈ opcodeTable,
    opcodeTable.find? (fun row => row.opcode == i.opcode) = some row ∧ row.build i.imm = i := by
  obtain ⟨⟨row, hfind, hbuild⟩, -⟩ := Laws.OpcodeRow.all i
  exact ⟨row, List.mem_of_find?_eq_some hfind, hfind, hbuild⟩

/-- Instructions with one opcode come from one row (R54). -/
theorem Instr.exists_row_of_opcode_eq {i j : Instr} (h : i.opcode = j.opcode) :
    ∃ row ∈ opcodeTable, row.build i.imm = i ∧ row.build j.imm = j := by
  obtain ⟨row, hrow, hfind, hi⟩ := i.exists_row
  obtain ⟨row', -, hfind', hj⟩ := j.exists_row
  obtain rfl : row = row' := Option.some.inj (by rw [← hfind, ← hfind', h])
  exact ⟨row, hrow, hi, hj⟩

/-- The opcode and the operand field determine the instruction (R51, R54). -/
theorem Instr.eq_of_fields {i j : Instr} (hopc : i.opcode = j.opcode) (himm : i.imm = j.imm) : i = j := by
  obtain ⟨row, -, hi, hj⟩ := Instr.exists_row_of_opcode_eq hopc
  rw [← hi, ← hj, himm]

/-- The opcodes are `0x01` to `0x25` (R55, R56). -/
theorem Instr.opcode_range (i : Instr) : 1 ≤ i.opcode.toNat ∧ i.opcode.toNat < 0x26 := by
  obtain ⟨row, hrow, -, hbuild⟩ := i.exists_row
  obtain ⟨hopc, -⟩ := OpcodeRow.build_fields row hrow i.imm
  have hmem : i.opcode ∈ (List.range' 1 37).map (BitVec.ofNat 8) := by
    rw [← opcodeTable_opcodes, ← hbuild, hopc]
    exact List.mem_map_of_mem hrow
  obtain ⟨n, hn, hn'⟩ := List.mem_map.mp hmem
  rw [List.mem_range'_1] at hn
  rw [← hn', BitVec.toNat_ofNat, Nat.mod_eq_of_lt (by omega)]
  omega

/-! ### The decoder -/

/-- The decoder answers the instruction with the fields of the word, or rejects the opcode byte and no instruction has
it (R54, R57). -/
theorem decode_cases (w : InstrWord) :
    (∃ i, decode w = .instr i ∧ i.opcode = opcField w ∧ i.imm = immField w) ∨
    (decode w = .invalid (opcField w) ∧ ∀ i : Instr, i.opcode ≠ opcField w) := by
  unfold decode
  cases hf : opcodeTable.find? (fun row => row.opcode == opcField w) with
  | some row =>
    obtain ⟨hopc, -, himm⟩ := OpcodeRow.build_fields row (List.mem_of_find?_eq_some hf) (immField w)
    exact .inl ⟨_, rfl, hopc.trans (by simpa using List.find?_some hf), himm⟩
  | none =>
    refine .inr ⟨rfl, fun i hi => ?_⟩
    obtain ⟨row, -, hfind, -⟩ := i.exists_row
    rw [hi, hf] at hfind
    cases hfind

/-- A word decodes to the instruction that has its fields (R51, R57). -/
theorem decode_eq_instr_iff {w : InstrWord} {i : Instr} :
    decode w = .instr i ↔ i.opcode = opcField w ∧ i.imm = immField w := by
  obtain ⟨j, hd, hopc, himm⟩ | ⟨hd, hnone⟩ := decode_cases w
  · rw [hd, Decoded.instr.injEq]
    constructor
    · rintro rfl
      exact ⟨hopc, himm⟩
    · rintro ⟨hopc', himm'⟩
      exact Instr.eq_of_fields (hopc.trans hopc'.symm) (himm.trans himm'.symm)
  · rw [hd]
    exact iff_of_false nofun fun ⟨hopc, _⟩ => hnone i hopc

/-- A word is rejected with its opcode byte exactly when no instruction has this byte (R56, R57). -/
theorem decode_eq_invalid_iff {w : InstrWord} {opc : Byte} :
    decode w = .invalid opc ↔ opc = opcField w ∧ ∀ i : Instr, i.opcode ≠ opcField w := by
  obtain ⟨i, hd, hopc, -⟩ | ⟨hd, hnone⟩ := decode_cases w
  · rw [hd]
    exact iff_of_false nofun fun ⟨_, hnone⟩ => hnone i hopc
  · rw [hd, Decoded.invalid.injEq]
    exact ⟨fun h => ⟨h.symm, hnone⟩, fun h => h.1.symm⟩

/-- Decoding an encoding gives the instruction back (R57). -/
theorem decode_encode (i : Instr) : decode (encode i) = .instr i :=
  decode_eq_instr_iff.mpr ⟨(opcField_encode i).symm, (immField_encode i).symm⟩

/-- Encoding what a word decodes to gives the word back, an ignored operand included (R57). -/
theorem encode_of_decode {w : InstrWord} {i : Instr} (h : decode w = .instr i) : encode i = w := by
  obtain ⟨hopc, himm⟩ := decode_eq_instr_iff.mp h
  rw [encode, hopc, himm, immField_append_opcField]

/-- Settles O1: the decoder answers the instruction that has the two fields of the word, and the fields make
the word. -/
theorem decodeEncodeRoundTrip : Obligations.DecodeEncodeRoundTrip :=
  ⟨encodeBytes_eq, fun _ _ => decode_eq_instr_iff, fun _ _ => decode_eq_invalid_iff, decode_encode,
    fun _ _ => encode_of_decode⟩

/-! ### Illegal opcode bytes -/

/-- A word is rejected with its opcode byte exactly when this byte is outside `0x01` to `0x25` (R56). -/
theorem decode_eq_invalid_iff_range {w : InstrWord} {opc : Byte} :
    decode w = .invalid opc ↔ opc = opcField w ∧ (opcField w = 0x00#8 ∨ 0x26 ≤ (opcField w).toNat) := by
  constructor
  · intro h
    obtain ⟨rfl, -⟩ := decode_eq_invalid_iff.mp h
    exact ⟨rfl, decode_invalid_range h⟩
  · rintro ⟨rfl, hillegal⟩
    refine decode_eq_invalid_iff.mpr ⟨rfl, fun i hi => ?_⟩
    obtain ⟨hpos, hmax⟩ := i.opcode_range
    rw [hi] at hpos hmax
    obtain hzero | hbig := hillegal
    · simp [hzero] at hpos
    · omega

/-- Among the words with operand 0, those whose opcode byte is `0x00` or at least `0x26` are rejected (R56). -/
theorem decode_ofNat_invalid_iff {n : Nat} (hn : n < 256) :
    decode (BitVec.ofNat 40 n) = .invalid (BitVec.ofNat 8 n) ↔ n = 0 ∨ 0x26 ≤ n := by
  have hval : (BitVec.ofNat 8 n).toNat = n := by
    rw [BitVec.toNat_ofNat, Nat.mod_eq_of_lt hn]
  have hopc : opcField (BitVec.ofNat 40 n) = BitVec.ofNat 8 n := by
    apply BitVec.eq_of_toNat_eq
    rw [hval, opcField, BitVec.extractLsb'_toNat, BitVec.toNat_ofNat, Nat.shiftRight_zero]
    omega
  have hzero : BitVec.ofNat 8 n = 0x00#8 ↔ n = 0 := by
    rw [← BitVec.toNat_inj, hval]
    rfl
  rw [decode_eq_invalid_iff_range, hopc, hzero, hval]
  exact and_iff_right rfl

/-- A fetched word that the decoder rejects raises `InvalidOpcode` with the opcode byte (R56, R141). -/
theorem step_of_decode_invalid {s : State} {w : InstrWord} {opc : Byte} (hs : s.fetches)
    (hw : s.mem.HoldsInstr s.pc w) (hd : decode w = .invalid opc) :
    step s = .next (s.faultedWith 1#2 (opc.setWidth 32)) := by
  obtain ⟨hrun, hin⟩ := hs
  simp only [step_running hrun, State.fetch_of_holdsInstr hin hw, hd]
  rfl

/-- Settles O2: the decoder rejects exactly the bytes outside the range of the map, and the step raises what it
rejects. -/
theorem illegalOpcodesRaiseInvalidOpcode : Obligations.IllegalOpcodesRaiseInvalidOpcode := by
  unfold Obligations.IllegalOpcodesRaiseInvalidOpcode
  refine ⟨fun w => ?_, ?_, fun s w hs hw hillegal => ?_⟩
  · simp only [decode_eq_invalid_iff_range, exists_eq_left]
    rfl
  · have hfilter : (List.range 256).filter (fun n => decode (BitVec.ofNat 40 n) = .invalid (BitVec.ofNat 8 n)) =
        (List.range 256).filter (fun n => n = 0 ∨ 0x26 ≤ n) :=
      List.filter_congr fun n hn => by simp only [decode_ofNat_invalid_iff (List.mem_range.mp hn)]
    rw [hfilter]
    rfl
  · exact step_of_decode_invalid hs hw (decode_eq_invalid_iff_range.mpr ⟨rfl, hillegal⟩)

/-! ### Mnemonics -/

/-- No two rows of the opcode map share a mnemonic (R55). -/
theorem opcodeTable_mnemonics_nodup : (opcodeTable.map OpcodeRow.mnemonic).Nodup := by decide

/-- The opcode fixes the mnemonic: one opcode, one row (R54). -/
theorem Instr.mnemonic_eq_of_opcode_eq {i j : Instr} (h : i.opcode = j.opcode) : i.mnemonic = j.mnemonic := by
  obtain ⟨row, hrow, hi, hj⟩ := Instr.exists_row_of_opcode_eq h
  obtain ⟨-, hmn, -⟩ := OpcodeRow.build_fields row hrow i.imm
  obtain ⟨-, hmn', -⟩ := OpcodeRow.build_fields row hrow j.imm
  rw [← hi, ← hj, hmn, hmn']

/-- The mnemonic fixes the opcode: one mnemonic, one row (R55). -/
theorem Instr.opcode_eq_of_mnemonic_eq {i j : Instr} (h : i.mnemonic = j.mnemonic) : i.opcode = j.opcode := by
  obtain ⟨row, hrow, -, hi⟩ := i.exists_row
  obtain ⟨row', hrow', -, hj⟩ := j.exists_row
  obtain ⟨hopc, hmn, -⟩ := OpcodeRow.build_fields row hrow i.imm
  obtain ⟨hopc', hmn', -⟩ := OpcodeRow.build_fields row' hrow' j.imm
  obtain rfl : row = row' :=
    List.inj_on_of_nodup_map opcodeTable_mnemonics_nodup hrow hrow' (by rw [← hmn, ← hmn', hi, hj, h])
  rw [← hi, ← hj, hopc, hopc']

/-- Settles O3: what the decoder answers carries the opcode byte, and this byte fixes the mnemonic. -/
theorem opcodeByteAloneSelectsTheInstruction : Obligations.OpcodeByteAloneSelectsTheInstruction := by
  unfold Obligations.OpcodeByteAloneSelectsTheInstruction
  refine ⟨fun w w' h => ?_, fun _ _ => ⟨Instr.mnemonic_eq_of_opcode_eq, Instr.opcode_eq_of_mnemonic_eq⟩⟩
  replace h : opcField w = opcField w' := h
  obtain ⟨i, hd, hopc, -⟩ | ⟨hd, hnone⟩ := decode_cases w
  · obtain ⟨i', hd', hopc', -⟩ | ⟨-, hnone'⟩ := decode_cases w'
    · exact .inl ⟨i, i', hd, hd', Instr.mnemonic_eq_of_opcode_eq (by rw [hopc, hopc', h])⟩
    · exact absurd (hopc.trans h) (hnone' i)
  · exact .inr ⟨_, hd, decode_eq_invalid_iff.mpr ⟨h, h ▸ hnone⟩⟩

/-! ### The unused operand -/

/-- The instructions of class `N`, by their mnemonics (R52, R53). -/
theorem Instr.operandClass_eq_unused_iff (i : Instr) : i.operandClass = .unused ↔ i.mnemonic ∈
    ["loadar", "loadbr", "storear", "storebr", "cmpint", "cmpfloat", "printrint", "printrfloat", "hlt"] := by
  cases i with
  | loadar _ | loadbr _ | storear _ | storebr _ | cmpint _ | cmpfloat _ | printrint _ | printrfloat _ | hlt _ =>
    exact iff_of_true rfl (by simp [Instr.mnemonic])
  | _ => exact iff_of_false nofun (by simp [Instr.mnemonic])

/-- Settles O5: the nine meanings take no operand. -/
theorem unusedOperandHasNoEffect : Obligations.UnusedOperandHasNoEffect :=
  ⟨fun _ _ _ => ⟨rfl, rfl, rfl, rfl, rfl, rfl, rfl, rfl, rfl⟩, Instr.operandClass_eq_unused_iff⟩

end Sys2Proof
end

-- ==== Sys2Proof/Proofs: loads ====
section
/-! The eight loads (R70 to R79): a literal into a register, or the word at the operand or at `x[R]`. A literal that is
loaded and then stored stands in memory two steps later (R78). -/

namespace Sys2Proof.Machine

/-! ### The instruction at `pc` -/

/-- A machine that stands at an instruction runs it (R141). -/
theorem State.AtInstr.step_eq {s : State} {i : Instr} (h : s.AtInstr i) : step s = exec i s := by
  obtain ⟨⟨hrun, hin⟩, hcode⟩ := h
  have hfetch := State.fetch_of_holdsInstr hin hcode
  simp only [step_running hrun, hfetch, decode_encode]

/-- The first four bytes of an instruction word are its low 32 bits (R33). -/
theorem Memory.HoldsInstr.holdsWord {m : Memory} {addr : Word} {w : InstrWord} (h : m.HoldsInstr addr w) :
    m.HoldsWord addr (w.extractLsb' 0 32) := by
  intro k hk
  rw [h k (by omega), BitVec.extractLsb'_extractLsb'_of_le (by omega)]

/-- The low 32 bits of an encoding: the low bits of the operand field above the opcode (R51). -/
theorem extractLsb'_encode_low (i : Instr) : (encode i).extractLsb' 0 32 = i.imm.extractLsb' 0 24 ++ i.opcode := by
  rw [← extractLsb'_encode i (start := 8) le_rfl, ← opcField_encode i, opcField,
    BitVec.extractLsb'_append_extractLsb'_eq_extractLsb' (Nat.zero_add 8).symm]

/-- Memory holds one word at an address. -/
theorem Memory.holdsWord_unique {m : Memory} {addr v v' : Word} (h : m.HoldsWord addr v) (h' : m.HoldsWord addr v') :
    v = v' := by
  rw [← Memory.readWord_of_holdsWord h, Memory.readWord_of_holdsWord h']

/-! ### Loads -/

/-- A register write and then the advance, as one update of the state. -/
theorem State.setReg_advance (s : State) (d : Reg) (v : Word) :
    (s.setReg d v).advance = { s.setReg d v with pc := s.pc + 5#32 } := by
  rw [State.advance, State.setReg_pc]

/-- Settles O26: the encoding is the opcode and the literal, and the meaning is one register write and the advance. -/
theorem loadImmediateCopiesTheOperand : Obligations.LoadImmediateCopiesTheOperand :=
  fun _ _ => ⟨⟨encodeBytes_eq _, rfl⟩, ⟨encodeBytes_eq _, rfl⟩, ⟨encodeBytes_eq _, rfl⟩⟩

/-- An instruction that means a load reads the word at the address, or faults and writes no register (R79). -/
theorem loadsOrFaults_of_loadWord {i : Instr} {s : State} {d : Reg} {addr : Word} (h : exec i s = loadWord d addr s) :
    LoadsOrFaults d i s addr := by
  rw [loadWord_eq] at h
  constructor
  · intro hin
    rw [if_pos hin, State.setReg_advance] at h
    exact ⟨_, Memory.holdsWord_readWord _ _, h⟩
  · intro hout
    rwa [if_neg (by omega)] at h

/-- Settles O27: the three instructions mean a load from the operand; at its own address stand the first four bytes of
the instruction itself. -/
theorem loadDirectReadsTheWordAtTheOperand : Obligations.LoadDirectReadsTheWordAtTheOperand := by
  unfold Obligations.LoadDirectReadsTheWordAtTheOperand
  refine ⟨fun a s => ⟨⟨encodeBytes_eq _, loadsOrFaults_of_loadWord rfl⟩, ⟨encodeBytes_eq _, loadsOrFaults_of_loadWord rfl⟩,
    ⟨encodeBytes_eq _, loadsOrFaults_of_loadWord rfl⟩⟩, fun s h => ?_⟩
  have ⟨⟨_, hin⟩, hcode⟩ := h
  obtain ⟨hreads, -⟩ : LoadsOrFaults .a (.loadam s.pc) s s.pc := loadsOrFaults_of_loadWord rfl
  obtain ⟨v, hv, hexec⟩ := hreads (by omega)
  have hself : v = s.pc.extractLsb' 0 24 ++ 0x04#8 :=
    (Memory.holdsWord_unique hv hcode.holdsWord).trans (extractLsb'_encode_low (.loadam s.pc))
  exact ⟨_, h.step_eq.trans hexec, hself⟩

/-- Settles O28: the two instructions mean a load from `x[R]`, whatever the operand. -/
theorem loadIndirectReadsTheWordAtR : Obligations.LoadIndirectReadsTheWordAtR :=
  fun _ _ => ⟨⟨encodeBytes_eq _, loadsOrFaults_of_loadWord rfl⟩, ⟨encodeBytes_eq _, loadsOrFaults_of_loadWord rfl⟩⟩

/-! ### A load immediate and a store direct -/

/-- The load immediate and the store direct of one register (R70 to R72, R80 to R82). -/
theorem exec_loadImmediate_storeDirect {load store : Word → Instr}
    (h : (load, store) ∈ [(Instr.loadai, Instr.stoream), (.loadbi, .storebm), (.loadri, .storerm)]) :
    ∃ d : Reg, (∀ v s, exec (load v) s = .next (s.setReg d v).advance) ∧
      ∀ addr s, exec (store addr) s = storeWord addr (s.getReg d) s := by
  simp only [List.mem_cons, Prod.mk.injEq, List.not_mem_nil, or_false] at h
  obtain ⟨rfl, rfl⟩ | ⟨rfl, rfl⟩ | ⟨rfl, rfl⟩ := h
  · exact ⟨.a, fun _ _ => rfl, fun _ _ => rfl⟩
  · exact ⟨.b, fun _ _ => rfl, fun _ _ => rfl⟩
  · exact ⟨.r, fun _ _ => rfl, fun _ _ => rfl⟩

@[simp] theorem State.getReg_advance (s : State) (d : Reg) : s.advance.getReg d = s.getReg d := by cases d <;> rfl

/-- After a register write and the advance the machine stands at the instruction five bytes on (R14, R50). -/
theorem State.atInstr_setReg_advance {s : State} {i : Instr} {d : Reg} {v : Word} (hrun : s.status = .running)
    (hin : uint s.pc + 10 ≤ s.mem.size.val) (hcode : s.mem.HoldsInstr (s.pc + 5#32) (encode i)) :
    (s.setReg d v).advance.AtInstr i := by
  have hfetch : uint s.pc + 5 ≤ s.mem.size.val := by omega
  have hpc : uint (s.pc + 5#32) = uint s.pc + 5 := Memory.uint_add_of_inBounds (w := 5#32) hfetch
  refine ⟨⟨by simp [hrun], ?_⟩, by simpa using hcode⟩
  simp only [State.advance_pc, State.advance_mem, State.setReg_pc, State.setReg_mem, hpc]
  omega

/-- Settles O24: after the load the machine stands at the store, with the literal in the register and memory as it was. -/
theorem loadThenStoreRoundTrip : Obligations.LoadThenStoreRoundTrip := by
  unfold Obligations.LoadThenStoreRoundTrip
  intro s literal addr load store hpair hm hload hroom hcode haddr
  obtain ⟨d, hexecLoad, hexecStore⟩ := exec_loadImmediate_storeDirect hpair
  have ⟨⟨hrun, _⟩, _⟩ := hload
  have hstore : (s.setReg d literal).advance.AtInstr (store addr) := State.atInstr_setReg_advance hrun hroom hcode
  have hstep : step (s.setReg d literal).advance = storeWord addr literal (s.setReg d literal).advance := by
    rw [hstore.step_eq, hexecStore, State.getReg_advance, State.getReg_setReg, if_pos rfl]
  obtain ⟨-, u, hu, heq, -, -, hword, -⟩ | ⟨hout, -⟩ :=
    storeWord_spec (s := (s.setReg d literal).advance) (addr := addr) (v := literal) (by simpa using hm)
  · exact ⟨_, u, hload.step_eq.trans (hexecLoad literal s), hstep.trans hu, by rw [heq]; simpa using hrun, hword⟩
  · rw [State.advance_mem, State.setReg_mem] at hout
    omega

end Sys2Proof.Machine
end

-- ==== Sys2Proof/Proofs: stores ====
section
/-! The five stores (R80 to R85): a register to the operand address, or `A` or `B` to `x[R]`. All five are `storeWord` with
an address and a register. -/

namespace Sys2Proof.Machine

/-- An instruction that means a store writes the word at the address, or faults and writes no byte (R85). -/
theorem storesOrFaults_of_storeWord {i : Instr} {s : State} {addr v : Word} (hm : s.mem.wf = true)
    (h : exec i s = storeWord addr v s) : StoresOrFaults i s addr v := by
  obtain ⟨hin, hstores⟩ | ⟨hout, hfaults⟩ := storeWord_spec (addr := addr) (v := v) hm
  · exact ⟨fun _ => by rwa [h], fun hout => by omega⟩
  · exact ⟨fun hin => by omega, fun _ => h.trans hfaults⟩

/-- A store out of bounds faults over every memory, canonical or not (R35). -/
theorem storeWord_outOfBounds {addr v : Word} {s : State} (h : s.mem.size.val < uint addr + 4) :
    storeWord addr v s = .next (s.faultedWith 2#2 addr) := by
  rw [storeWord_next, if_neg (by omega)]

/-- A word that ends at `2^32` or beyond is out of bounds in every memory, since `N < 2^32` (R4) and the sum of the bounds
check does not wrap (R32). -/
theorem Memory.outOfBounds_of_end_ge (m : Memory) {addr : Word} (h : 2 ^ 32 ≤ uint addr + 4) :
    m.size.val < uint addr + 4 :=
  m.size.isLt.trans_le h

/-- Settles O29: the three instructions mean a store of their register at the operand. -/
theorem storeDirectWritesTheRegisterAtTheOperand : Obligations.StoreDirectWritesTheRegisterAtTheOperand :=
  fun _ _ hm => ⟨⟨encodeBytes_eq _, storesOrFaults_of_storeWord hm rfl⟩,
    ⟨encodeBytes_eq _, storesOrFaults_of_storeWord hm rfl⟩, ⟨encodeBytes_eq _, storesOrFaults_of_storeWord hm rfl⟩⟩

/-- Settles O30: the two instructions mean a store of their register at `x[R]`, whatever the operand; at `0xFFFFFFFE` the
word ends beyond `2^32`, so the store is out of bounds over every memory. -/
theorem storeIndirectWritesTheRegisterAtR : Obligations.StoreIndirectWritesTheRegisterAtR := by
  unfold Obligations.StoreIndirectWritesTheRegisterAtR
  constructor
  · intro v s hm
    exact ⟨⟨encodeBytes_eq _, storesOrFaults_of_storeWord hm rfl⟩, ⟨encodeBytes_eq _, storesOrFaults_of_storeWord hm rfl⟩⟩
  · intro v s hr
    have hexec : exec (.storear v) s = storeWord 0xFFFFFFFE#32 s.a s := congrArg (storeWord · s.a s) hr
    exact hexec.trans (storeWord_outOfBounds (s.mem.outOfBounds_of_end_ge (by decide)))

end Sys2Proof.Machine
end

-- ==== Sys2Proof/Proofs: integer arithmetic ====
section
/-! The five integer arithmetic instructions (R90 to R96). Sum, difference and product are one store of a wrapped result.
The divider answers the `BitVec` quotient and remainder, `sdiv` and `srem`, unless it faults; their laws are those of
division rounded toward zero on the integers. -/

namespace Sys2Proof.Machine

/-! ### Wrapped results -/

/-- The model's `int32` wraps modulo `2^32` (R6). -/
theorem toNat_int32 (z : ℤ) : ((int32 z).toNat : ℤ) = z % 2 ^ 32 := by
  rw [int32, BitVec.toNat_ofNat]
  omega

/-- The signed and the unsigned reading of a word agree modulo `2^32` (R6). -/
theorem toInt_modEq_toNat (v : Word) : v.toInt ≡ (v.toNat : ℤ) [ZMOD 2 ^ 32] := by
  rw [Int.ModEq, BitVec.toInt_eq_toNat_bmod]
  exact Int.bmod_emod

/-- An instruction that stores the wrapped result of an operation on `A` and `B`: when the operation respects congruence
modulo `2^32`, the signed and the unsigned reading of the operands give the same word (R90 to R93). -/
theorem storesOrFaults_wrapped {op : ℤ → ℤ → ℤ}
    (hop : ∀ {a a' b b' : ℤ}, a ≡ a' [ZMOD 2 ^ 32] → b ≡ b' [ZMOD 2 ^ 32] → op a b ≡ op a' b' [ZMOD 2 ^ 32])
    {i : Instr} {s : State} {d : Word} (hm : s.mem.wf = true)
    (hexec : exec i s = storeWord d (int32 (op (sint s.a) (sint s.b))) s) :
    ∃ r : Word, StoresOrFaults i s d r ∧ (r.toNat : ℤ) = op s.a.toInt s.b.toInt % 2 ^ 32 ∧
      (r.toNat : ℤ) = op s.a.toNat s.b.toNat % 2 ^ 32 := by
  have hsigned : ((int32 (op (sint s.a) (sint s.b))).toNat : ℤ) = op s.a.toInt s.b.toInt % 2 ^ 32 := by
    rw [toNat_int32, sint_eq_toInt, sint_eq_toInt]
  exact ⟨_, storesOrFaults_of_storeWord hm hexec, hsigned,
    hsigned.trans (hop (toInt_modEq_toNat s.a) (toInt_modEq_toNat s.b))⟩

/-- Settles O31: the instruction stores the wrapped sum. -/
theorem addintStoresTheWrappedSum : Obligations.AddintStoresTheWrappedSum :=
  fun _ _ hm => ⟨encodeBytes_eq _, storesOrFaults_wrapped (op := (· + ·)) Int.ModEq.add hm rfl⟩

/-- Settles O32: the instruction stores the wrapped difference, `A` on the left. -/
theorem subintStoresTheWrappedDifference : Obligations.SubintStoresTheWrappedDifference :=
  fun _ _ hm => ⟨encodeBytes_eq _, storesOrFaults_wrapped (op := (· - ·)) Int.ModEq.sub hm rfl⟩

/-- Settles O33: the instruction stores the wrapped product. -/
theorem multintStoresTheLowWordOfTheProduct : Obligations.MultintStoresTheLowWordOfTheProduct :=
  fun _ _ hm => ⟨encodeBytes_eq _, storesOrFaults_wrapped (op := (· * ·)) Int.ModEq.mul hm rfl⟩

/-! ### The divider -/

/-- Equal signed values are equal words (R6). -/
theorem sint_inj {v w : Word} : sint v = sint w ↔ v = w := by
  rw [sint_eq_toInt, sint_eq_toInt, BitVec.toInt_inj]

/-- The two faults of the divider, in their order, on the words themselves (R94, R153). -/
theorem divideFault_eq (x y : Word) : divideFault x y =
    if y = 0#32 then some .divisionByZero
    else if x = 0x80000000#32 ∧ y = 0xFFFFFFFF#32 then some .divideOverflow
    else none := by
  have hzero : sint y = 0 ↔ y = 0#32 := sint_inj (w := 0#32)
  have hmin : sint x = int32Min ↔ x = 0x80000000#32 := sint_inj (w := 0x80000000#32)
  have hneg : sint y = -1 ↔ y = 0xFFFFFFFF#32 := sint_inj (w := 0xFFFFFFFF#32)
  simp only [divideFault, hzero, hmin, hneg]

/-- The pairs on which the divider answers (R94). -/
theorem divideFault_eq_none_iff {x y : Word} : divideFault x y = none ↔
    y ≠ 0#32 ∧ (x ≠ 0x80000000#32 ∨ y ≠ 0xFFFFFFFF#32) := by
  rw [divideFault_eq, ← not_and_or]
  split_ifs <;> simp_all

/-- Without a fault `divint` answers the signed quotient of the words, whose value is the truncated quotient (R94). -/
theorem divInt_of_no_fault {x y : Word} (h : divideFault x y = none) :
    ∃ q : Word, divInt x y = .ok q ∧ q.toInt = x.toInt.tdiv y.toInt := by
  obtain ⟨-, hoverflow⟩ := divideFault_eq_none_iff.mp h
  refine ⟨x.sdiv y, ?_, BitVec.toInt_sdiv_of_ne_or_ne x y hoverflow⟩
  rw [divInt, h, int32_eq_ofInt, sint_eq_toInt, sint_eq_toInt, ← BitVec.toInt_sdiv_of_ne_or_ne x y hoverflow,
    BitVec.ofInt_toInt]

/-- Without a fault `modint` answers the signed remainder of the words, whose value is `a - b * trunc(a / b)` (R95). -/
theorem modInt_of_no_fault {x y : Word} (h : divideFault x y = none) :
    ∃ m : Word, modInt x y = .ok m ∧ m.toInt = x.toInt - y.toInt * x.toInt.tdiv y.toInt := by
  have hvalue : (x.srem y).toInt = x.toInt - y.toInt * x.toInt.tdiv y.toInt :=
    (BitVec.toInt_srem x y).trans (Int.tmod_def _ _)
  refine ⟨x.srem y, ?_, hvalue⟩
  rw [modInt, h, sint_eq_toInt, sint_eq_toInt, ← hvalue, int32_eq_ofInt, BitVec.ofInt_toInt]

theorem divInt_of_fault {x y : Word} {f : CoreFault} (h : divideFault x y = some f) : divInt x y = .error f := by
  rw [divInt, h]

theorem modInt_of_fault {x y : Word} {f : CoreFault} (h : divideFault x y = some f) : modInt x y = .error f := by
  rw [modInt, h]

/-- An instruction that stores what the divider answers: the two arithmetic faults come before the store (R94, R95, R153),
and otherwise the answer, with its property `P`, is stored. -/
theorem divides_or_faults {i : Instr} {s : State} {d : Word} {res : Except CoreFault Word} {P : Word → Prop}
    (hm : s.mem.wf = true) (hexec : exec i s = storeResult res d s)
    (hfault : ∀ {f}, divideFault s.a s.b = some f → res = .error f)
    (hanswer : divideFault s.a s.b = none → ∃ r, res = .ok r ∧ P r) :
    if s.b = 0#32 then exec i s = .next (s.faultedWith 3#2 0#32)
    else if s.a = 0x80000000#32 ∧ s.b = 0xFFFFFFFF#32 then exec i s = .next (s.faultedWith 3#2 1#32)
    else ∃ r : Word, P r ∧ StoresOrFaults i s d r := by
  have hraise {f : CoreFault} (h : divideFault s.a s.b = some f) : exec i s = .next (s.faultedWith f.cause f.info) := by
    rw [hexec, hfault h, storeResult_error, State.raise_eq]
  rw [divideFault_eq] at hraise hanswer
  split_ifs at hraise hanswer ⊢
  · exact hraise rfl
  · exact hraise rfl
  · obtain ⟨r, rfl, hr⟩ := hanswer rfl
    exact ⟨r, hr, storesOrFaults_of_storeWord hm hexec⟩

/-- Settles O34: the instruction stores what the divider answers for the quotient. -/
theorem divintStoresTheTruncatedQuotientOrFaults : Obligations.DivintStoresTheTruncatedQuotientOrFaults :=
  fun _ _ hm => ⟨encodeBytes_eq _, divides_or_faults hm rfl divInt_of_fault divInt_of_no_fault⟩

/-- Settles O35: the instruction stores what the divider answers for the remainder. -/
theorem modintStoresTheRemainderOrFaults : Obligations.ModintStoresTheRemainderOrFaults :=
  fun _ _ hm => ⟨encodeBytes_eq _, divides_or_faults hm rfl modInt_of_fault modInt_of_no_fault⟩

/-! ### The laws of quotient and remainder -/

/-- A remainder of the truncated division is zero or has the sign of the dividend (R95). -/
theorem tmod_eq_zero_or_neg_iff (a b : ℤ) : a.tmod b = 0 ∨ (a.tmod b < 0 ↔ a < 0) := by
  by_cases h : b ∣ a
  · exact .inl (Int.tmod_eq_zero_of_dvd h)
  · have hsign : (a.tmod b).sign = a.sign := by rw [Int.sign_tmod, if_neg h]
    right
    rw [← Int.sign_eq_neg_one_iff_neg, hsign, Int.sign_eq_neg_one_iff_neg]

/-- A truncated quotient is negative exactly when the signs differ and the divisor is not the larger one (R94, R96). -/
theorem tdiv_neg_iff {a b : ℤ} (hb : b ≠ 0) : a.tdiv b < 0 ↔ ((a < 0 ↔ ¬ b < 0) ∧ b.natAbs ≤ a.natAbs) := by
  rw [← Int.sign_eq_neg_one_iff_neg, Int.sign_tdiv]
  split
  next hsmall => omega
  next hlarge =>
    rw [← Int.sign_mul, Int.sign_eq_neg_one_iff_neg, mul_neg_iff]
    omega

/-- Settles O36: the words' values are the truncated quotient and remainder, and the laws hold of those. -/
theorem divisionLaws : Obligations.DivisionLaws := by
  unfold Obligations.DivisionLaws
  intro x y h
  obtain ⟨hy, -⟩ := divideFault_eq_none_iff.mp h
  have hy0 : y.toInt ≠ 0 := BitVec.toInt_ne.mpr hy
  obtain ⟨q, hdiv, hq⟩ := divInt_of_no_fault h
  obtain ⟨m, hmod, hm⟩ := modInt_of_no_fault h
  have hmtmod : m.toInt = x.toInt.tmod y.toInt := hm.trans (Int.tmod_def _ _).symm
  refine ⟨q, m, hdiv, hmod, ?recompose, ?bound, ?remainderSign, ?quotientSign⟩
  case recompose => rw [hq, hmtmod, Int.mul_tdiv_add_tmod, int32_eq_ofInt, BitVec.ofInt_toInt]
  case bound =>
    rw [hmtmod, Int.natAbs_tmod]
    exact Nat.mod_lt _ (Int.natAbs_pos.mpr hy0)
  case remainderSign =>
    have hzero : m.toInt = 0 ↔ m = 0#32 := BitVec.toInt_inj (y := 0#32)
    rw [← hzero, hmtmod]
    exact tmod_eq_zero_or_neg_iff _ _
  case quotientSign =>
    rw [hq]
    exact tdiv_neg_iff hy0

end Sys2Proof.Machine
end

-- ==== Sys2Proof/Proofs: float format ====
section
/-! The binary32 format (R100): a pattern is its sign, exponent and fraction, and `fval` reads one row of the table from them.
A finite datum is a SCALED SIGNIFICAND, `q * 2 ^ shift` units, and its pattern below the sign is `shift * 2 ^ 23 + q`; this one
form covers subnormal and normal numbers, so `fbits` undoes `fval`, and it serves the rounding as well. -/

namespace Sys2Proof.Machine

/-! ### The three fields -/

theorem floatSign_eq (v : Word) : floatSign v = decide (2 ^ 31 ≤ v.toNat) := BitVec.msb_eq_decide v

theorem floatExp_eq (v : Word) : floatExp v = v.toNat / 2 ^ 23 % 2 ^ 8 := by
  rw [floatExp, BitVec.extractLsb'_toNat, Nat.shiftRight_eq_div_pow]

theorem floatFrac_eq (v : Word) : floatFrac v = v.toNat % 2 ^ 23 := by
  rw [floatFrac, BitVec.extractLsb'_toNat, Nat.shiftRight_zero]

theorem floatFrac_lt (v : Word) : floatFrac v < 2 ^ 23 := (v.extractLsb' 0 23).isLt

theorem floatExp_lt (v : Word) : floatExp v < 2 ^ 8 := (v.extractLsb' 23 8).isLt

theorem toNat_withSign (neg : Bool) {m : ℕ} (hm : m < 2 ^ 31) : (withSign neg m).toNat = neg.toNat * 2 ^ 31 + m := by
  rw [withSign, BitVec.toNat_append, BitVec.toNat_ofNat, Nat.mod_eq_of_lt hm, ← Nat.shiftLeft_add_eq_or_of_lt hm,
    Nat.shiftLeft_eq, BitVec.toNat_ofBool]

theorem floatSign_withSign (neg : Bool) {m : ℕ} (hm : m < 2 ^ 31) : floatSign (withSign neg m) = neg := by
  rw [floatSign_eq, toNat_withSign neg hm]
  cases neg with
  | false => simpa using hm
  | true => simp

theorem floatExp_withSign (neg : Bool) {m : ℕ} (hm : m < 2 ^ 31) : floatExp (withSign neg m) = m / 2 ^ 23 := by
  rw [floatExp_eq, toNat_withSign neg hm]
  omega

theorem floatFrac_withSign (neg : Bool) {m : ℕ} (hm : m < 2 ^ 31) : floatFrac (withSign neg m) = m % 2 ^ 23 := by
  rw [floatFrac_eq, toNat_withSign neg hm]
  omega

/-- Bit 0 of a pattern is the parity of its magnitude field. -/
theorem getLsbD_zero_withSign (neg : Bool) {m : ℕ} (hm : m < 2 ^ 31) :
    (withSign neg m).getLsbD 0 = decide (m % 2 = 1) := by
  rw [← BitVec.testBit_toNat, toNat_withSign neg hm, Nat.testBit_zero]
  congr 1
  apply propext
  omega

/-- A pattern is its sign above its exponent above its fraction (R100). -/
theorem withSign_fields (v : Word) : withSign (floatSign v) (floatExp v * 2 ^ 23 + floatFrac v) = v := by
  have hm : floatExp v * 2 ^ 23 + floatFrac v < 2 ^ 31 := by
    have := floatExp_lt v
    have := floatFrac_lt v
    omega
  apply BitVec.eq_of_toNat_eq
  have hlt := v.isLt
  rw [toNat_withSign _ hm, floatSign_eq, floatExp_eq, floatFrac_eq]
  by_cases hneg : 2 ^ 31 ≤ v.toNat
  · rw [decide_eq_true hneg, Bool.toNat_true]
    omega
  · rw [decide_eq_false hneg, Bool.toNat_false]
    omega

/-! ### The rows of the table of R100 -/

theorem isNaN_iff (v : Word) : isNaN v = true ↔ floatExp v = 255 ∧ floatFrac v ≠ 0 := by simp [isNaN]

theorem fval_eq_none_iff {v : Word} : fval v = none ↔ floatExp v = 255 ∧ floatFrac v ≠ 0 := by
  rw [← isNaN_iff, fval]
  split_ifs <;> simp_all

theorem fval_of_exp_max {v : Word} (he : floatExp v = 255) (hf : floatFrac v = 0) :
    fval v = some (.infinity (floatSign v)) := by
  simp [fval, isNaN, he, hf]

theorem fval_of_exp_zero {v : Word} (he : floatExp v = 0) : fval v = some (.finite (floatSign v) (floatFrac v)) := by
  simp [fval, isNaN, he]

theorem fval_of_normal {v : Word} (hpos : 1 ≤ floatExp v) (hmax : floatExp v ≤ 254) :
    fval v = some (.finite (floatSign v) ((2 ^ 23 + floatFrac v) * 2 ^ (floatExp v - 1))) := by
  have hne : floatExp v ≠ 255 := by omega
  have hzero : floatExp v ≠ 0 := by omega
  rw [fval, if_neg (by simp [isNaN_iff, hne]), if_neg hne, if_neg hzero]

/-! ### Scaled significands -/

/-- The units `q * 2 ^ shift` are scaled as a binary32 magnitude is: the significand `q` has at most 24 bits (or is the
`2 ^ 24` that a rounding up leaves), and its leading bit stands at bit 23 unless the number is subnormal (R100). -/
structure ScaledSignificand (shift q : ℕ) : Prop where
  le : q ≤ 2 ^ 24
  normal : shift = 0 ∨ 2 ^ 23 ≤ q

/-- The carry: the significand `2 ^ 24` is `2 ^ 23` one shift up. -/
theorem carry_units (shift : ℕ) : 2 ^ 24 * 2 ^ shift = 2 ^ 23 * 2 ^ (shift + 1) := by
  rw [pow_succ 2 shift, pow_succ 2 23]
  ac_rfl

theorem significandShift_of_scaled {shift q : ℕ} (h : ScaledSignificand shift q) (hlt : q < 2 ^ 24) :
    significandShift (q * 2 ^ shift) = shift := by
  rw [significandShift]
  obtain rfl | hlow := h.normal
  · have : (q * 2 ^ 0).log2 < 24 := by
      rcases Nat.eq_zero_or_pos q with rfl | hpos
      · decide
      · rw [pow_zero, mul_one]
        exact (Nat.log2_lt hpos.ne').mpr hlt
    omega
  · have hne : q * 2 ^ shift ≠ 0 := by positivity
    have hlog : (q * 2 ^ shift).log2 = 23 + shift := by
      refine (Nat.log2_eq_iff hne).mpr ⟨?_, ?_⟩
      · rw [pow_add]
        gcongr
      · calc q * 2 ^ shift < 2 ^ 24 * 2 ^ shift := by gcongr
          _ = 2 ^ (23 + shift + 1) := by ring
    omega

/-- The pattern of scaled units: the exponent field and the fraction add up to `shift * 2 ^ 23 + q`, also for the carry
`q = 2 ^ 24` into the next exponent (R100). -/
theorem fbits_scaled (neg : Bool) {shift q : ℕ} (h : ScaledSignificand shift q) :
    fbits (.finite neg (q * 2 ^ shift)) = withSign neg (shift * 2 ^ 23 + q) := by
  have hbelow {shift q : ℕ} (h : ScaledSignificand shift q) (hlt : q < 2 ^ 24) :
      fbits (.finite neg (q * 2 ^ shift)) = withSign neg (shift * 2 ^ 23 + q) := by
    rw [fbits, significandShift_of_scaled h hlt, Nat.mul_div_cancel _ (by positivity)]
  obtain hlt | rfl := h.le.lt_or_eq
  · exact hbelow h hlt
  · have hpattern : (shift + 1) * 2 ^ 23 + 2 ^ 23 = shift * 2 ^ 23 + 2 ^ 24 := by omega
    rw [carry_units, hbelow ⟨by norm_num, .inr le_rfl⟩ (by norm_num), hpattern]

/-- That pattern reads back as the units it was made of, when it lies below the infinities (R100). -/
theorem fval_scaled (neg : Bool) {shift q : ℕ} (h : ScaledSignificand shift q)
    (hfin : shift * 2 ^ 23 + q < 255 * 2 ^ 23) :
    fval (withSign neg (shift * 2 ^ 23 + q)) = some (.finite neg (q * 2 ^ shift)) := by
  have hm : shift * 2 ^ 23 + q < 2 ^ 31 := by omega
  have hle := h.le
  have hnormal := h.normal
  have hsign := floatSign_withSign neg hm
  have hexp := floatExp_withSign neg hm
  have hfrac := floatFrac_withSign neg hm
  by_cases hsub : q < 2 ^ 23
  case pos =>
    obtain rfl : shift = 0 := by omega
    rw [fval_of_exp_zero (by omega), hsign, hfrac, pow_zero, mul_one]
    congr 2
    omega
  case neg =>
    rw [fval_of_normal (by omega) (by omega), hsign, hexp, hfrac]
    obtain hlt | rfl := hle.lt_or_eq
    · have hq : 2 ^ 23 + (shift * 2 ^ 23 + q) % 2 ^ 23 = q := by omega
      have hshift : (shift * 2 ^ 23 + q) / 2 ^ 23 - 1 = shift := by omega
      rw [hq, hshift]
    · have hq : 2 ^ 23 + (shift * 2 ^ 23 + 2 ^ 24) % 2 ^ 23 = 2 ^ 23 := by omega
      have hshift : (shift * 2 ^ 23 + 2 ^ 24) / 2 ^ 23 - 1 = shift + 1 := by omega
      rw [hq, hshift, carry_units]

/-- The inversion of `fval` on numbers: a finite pattern has a scaled significand of at most 24 bits (R100). -/
theorem scaled_of_fval {v : Word} {neg : Bool} {k : ℕ} (h : fval v = some (.finite neg k)) :
    ∃ shift q, ScaledSignificand shift q ∧ q < 2 ^ 24 ∧ k = q * 2 ^ shift ∧ v = withSign neg (shift * 2 ^ 23 + q) := by
  have hfrac := floatFrac_lt v
  have hexp := floatExp_lt v
  have hfields := withSign_fields v
  obtain hzero | ⟨hpos, hmax⟩ | hmax :
    floatExp v = 0 ∨ (1 ≤ floatExp v ∧ floatExp v ≤ 254) ∨ floatExp v = 255 := by omega
  · rw [fval_of_exp_zero hzero] at h
    obtain ⟨rfl, rfl⟩ : floatSign v = neg ∧ floatFrac v = k := by simpa using h
    refine ⟨0, floatFrac v, ⟨by omega, .inl rfl⟩, by omega, by simp, ?_⟩
    rw [← hzero, hfields]
  · rw [fval_of_normal hpos hmax] at h
    obtain ⟨rfl, rfl⟩ : floatSign v = neg ∧ (2 ^ 23 + floatFrac v) * 2 ^ (floatExp v - 1) = k := by simpa using h
    refine ⟨floatExp v - 1, 2 ^ 23 + floatFrac v, ⟨by omega, .inr (by omega)⟩, by omega, rfl, ?_⟩
    have hmagnitude : (floatExp v - 1) * 2 ^ 23 + (2 ^ 23 + floatFrac v) = floatExp v * 2 ^ 23 + floatFrac v := by omega
    rw [hmagnitude, hfields]
  · rw [fval, if_pos hmax] at h
    split_ifs at h
    cases h

/-- The inversion of `fval` on infinities (R100). -/
theorem infinityBits_of_fval {v : Word} {neg : Bool} (h : fval v = some (.infinity neg)) : v = infinityBits neg := by
  obtain ⟨hnan, hmax, rfl⟩ : ¬ isNaN v = true ∧ floatExp v = 255 ∧ floatSign v = neg := by
    rw [fval] at h
    split_ifs at h with hnan hmax
    · exact ⟨hnan, hmax, by simpa using h⟩
    all_goals simp at h
  have hfrac : floatFrac v = 0 := by
    by_contra hne
    exact hnan ((isNaN_iff v).mpr ⟨hmax, hne⟩)
  conv_lhs => rw [← withSign_fields v, hmax, hfrac]
  rfl

/-- `fbits` undoes `fval` (R100). -/
theorem fbits_of_fval {v : Word} {p : FloatNumber} (h : fval v = some p) : fbits p = v := by
  cases p with
  | infinity neg => exact (infinityBits_of_fval h).symm
  | finite neg k =>
    obtain ⟨shift, q, hscaled, -, rfl, rfl⟩ := scaled_of_fval h
    exact fbits_scaled neg hscaled

/-- The patterns of two equal data are equal (R100). -/
theorem eq_of_fval_eq_some {v w : Word} {p : FloatNumber} (hv : fval v = some p) (hw : fval w = some p) : w = v :=
  (fbits_of_fval hw).symm.trans (fbits_of_fval hv)

/-! ### The format -/

theorem unitsValue_eq (neg : Bool) (units : ℕ) :
    unitsValue neg units = (-1) ^ neg.toNat * (units : ℚ) * (2 : ℚ) ^ (-149 : ℤ) := by
  cases neg <;> simp [unitsValue]

/-- The value of a normal number, its units read back as a significand and an exponent (R100). -/
theorem unitsValue_normal (neg : Bool) (f : ℕ) {e : ℕ} (he : 1 ≤ e) :
    unitsValue neg ((2 ^ 23 + f) * 2 ^ (e - 1)) = (-1) ^ neg.toNat * ((2 : ℚ) ^ 23 + f) * 2 ^ ((e : ℤ) - 150) := by
  have hscale : (2 : ℚ) ^ (e - 1) * 2 ^ (-149 : ℤ) = 2 ^ ((e : ℤ) - 150) := by
    rw [← zpow_natCast, ← zpow_add₀ (two_ne_zero), Nat.cast_sub he]
    congr 1
    push_cast
    ring
  rw [unitsValue_eq, ← hscale]
  push_cast
  ring

/-- Settles O37: the rows are those of `fval`, and `fbits` undoes `fval`. -/
theorem floatFormatIsBinary32 : Obligations.FloatFormatIsBinary32 := by
  unfold Obligations.FloatFormatIsBinary32
  refine ⟨fun v => ⟨⟨fun he => ?zero, fun hpos hmax => ?normal, fval_of_exp_max,
      fun he hf => fval_eq_none_iff.mpr ⟨he, hf⟩⟩,
    fun p hp => ⟨fbits_of_fval hp, fun w hw => eq_of_fval_eq_some hp hw⟩⟩, ?constants⟩
  case zero => exact ⟨_, fval_of_exp_zero he, Iff.rfl, unitsValue_eq _ _⟩
  case normal => exact ⟨_, fval_of_normal hpos hmax, unitsValue_normal _ _ hpos⟩
  case constants => decide

end Sys2Proof.Machine
end

-- ==== Sys2Proof/Proofs: float rounding ====
section
/-! Rounding (R101). The ratio is divided by the scale that leaves a 24-bit significand and rounded to an integer there. Every
pattern's magnitude is a multiple of that scale or lies below all the significands of that scale, so no pattern is nearer. -/

namespace Sys2Proof.Machine

/-! ### Rounding to an integer -/

/-- The rounded quotient is within one half of the exact one, and even at exactly one half (R101). -/
theorem divNearestEven_spec (n : ℕ) {d : ℕ} (hd : 0 < d) :
    2 * (divNearestEven n d * d) ≤ 2 * n + d ∧ 2 * n ≤ 2 * (divNearestEven n d * d) + d ∧
    (2 * (divNearestEven n d * d) = 2 * n + d ∨ 2 * n = 2 * (divNearestEven n d * d) + d →
      divNearestEven n d % 2 = 0) := by
  have hsplit := Nat.div_add_mod' n d
  have hrem := Nat.mod_lt n hd
  have hup : (n / d + 1) * d = n / d * d + d := Nat.succ_mul _ _
  simp only [divNearestEven]
  split_ifs with hbelow habove
  · omega
  · omega
  · obtain heven | hodd := Nat.mod_two_eq_zero_or_one (n / d)
    · rw [heven, add_zero]
      omega
    · rw [hodd]
      omega

/-- A quotient below `m + 1/2` is rounded to `m` or below. -/
theorem divNearestEven_le {n d m : ℕ} (hd : 0 < d) (h : 2 * n < 2 * (m * d) + d) : divNearestEven n d ≤ m := by
  obtain ⟨hle, -, -⟩ := divNearestEven_spec n hd
  by_contra hlt
  have hstep : (m + 1) * d ≤ divNearestEven n d * d := Nat.mul_le_mul_right d (by omega)
  rw [Nat.succ_mul] at hstep
  omega

/-- A quotient above `m - 1/2` is rounded to `m` or above. -/
theorem le_divNearestEven {n d m : ℕ} (hd : 0 < d) (h : 2 * (m * d) < 2 * n + d) : m ≤ divNearestEven n d := by
  obtain ⟨-, hge, -⟩ := divNearestEven_spec n hd
  by_contra hlt
  have hstep : (divNearestEven n d + 1) * d ≤ m * d := Nat.mul_le_mul_right d (by omega)
  rw [Nat.succ_mul] at hstep
  omega

/-- `k` is at least as near to the ratio `n / d` as `j` is, and when another value `j` is as near, `tie` holds: the two
clauses of `IsRounded` for one `j`, the ratio being positive. -/
def NearAs (n d k : ℕ) (tie : Prop) (j : ℤ) : Prop :=
  ((n : ℤ) - k * d).natAbs ≤ ((n : ℤ) - j * d).natAbs ∧
  (j ≠ k → ((n : ℤ) - k * d).natAbs = ((n : ℤ) - j * d).natAbs → tie)

/-- No integer is nearer to the quotient, and when another is as near the rounded one is even (R101). -/
theorem divNearestEven_nearest (n : ℕ) {d : ℕ} (hd : 0 < d) (m : ℤ) :
    NearAs n d (divNearestEven n d) (divNearestEven n d % 2 = 0) m := by
  rw [NearAs]
  obtain ⟨hle, hge, htie⟩ := divNearestEven_spec n hd
  generalize divNearestEven n d = q at *
  zify at hle hge htie
  obtain hlt | rfl | hgt := lt_trichotomy m q
  · have hstep : (m + 1) * d ≤ q * d := by gcongr; omega
    rw [add_mul, one_mul] at hstep
    omega
  · exact ⟨le_rfl, fun hne => absurd rfl hne⟩
  · have hstep : ((q : ℤ) + 1) * d ≤ m * d := by gcongr; omega
    rw [add_mul, one_mul] at hstep
    omega

/-! ### The scale of a ratio -/

/-- The shift brings a ratio below `2 ^ 24`, and to `2 ^ 23` or above unless the ratio is in the subnormal range. -/
theorem significandShift_ratio (n : ℕ) {d : ℕ} (hd : 0 < d) :
    n < 2 ^ 24 * (d * 2 ^ significandShift (n / d)) ∧
    (significandShift (n / d) = 0 ∨ 2 ^ 23 * (d * 2 ^ significandShift (n / d)) ≤ n) := by
  have hswap (a b : ℕ) : 2 ^ a * (d * 2 ^ b) = 2 ^ (a + b) * d := by ring
  rw [hswap, hswap, ← Nat.div_lt_iff_lt_mul hd, ← Nat.le_div_iff_mul_le hd]
  generalize n / d = u
  constructor
  · refine Nat.lt_log2_self.trans_le (Nat.pow_le_pow_right two_pos ?_)
    rw [significandShift]
    omega
  · rw [or_iff_not_imp_left]
    intro hshift
    have hlog : 23 + significandShift u = u.log2 := by
      rw [significandShift] at hshift ⊢
      omega
    rw [hlog]
    refine Nat.log2_self_le ?_
    rintro rfl
    exact hshift (by decide)

/-- Below the overflow threshold a ratio is rounded to a scaled significand of a finite pattern (R101). -/
theorem scaled_divNearestEven {n d : ℕ} (hd : 0 < d) (hn : n < (2 ^ 25 - 1) * 2 ^ 252 * d) :
    ScaledSignificand (significandShift (n / d)) (divNearestEven n (d * 2 ^ significandShift (n / d))) ∧
    significandShift (n / d) * 2 ^ 23 + divNearestEven n (d * 2 ^ significandShift (n / d)) < 255 * 2 ^ 23 := by
  obtain ⟨hupper, hlower⟩ := significandShift_ratio n hd
  have hshift : significandShift (n / d) ≤ 253 := by
    have hratio : n / d < 2 ^ (25 + 252) := by
      rw [pow_add]
      exact ((Nat.div_lt_iff_lt_mul hd).mpr hn).trans (by norm_num)
    rw [significandShift]
    obtain hzero | hne := eq_or_ne (n / d) 0
    · rw [hzero]
      decide
    · have := (Nat.log2_lt hne).mpr hratio
      omega
  generalize significandShift (n / d) = shift at *
  have hscale : 0 < d * 2 ^ shift := by positivity
  have hle : divNearestEven n (d * 2 ^ shift) ≤ 2 ^ 24 := divNearestEven_le hscale (by omega)
  refine ⟨⟨hle, hlower.imp_right fun h => le_divNearestEven hscale (by omega)⟩, ?_⟩
  obtain hlt | rfl := hshift.lt_or_eq
  · omega
  · have hmax : divNearestEven n (d * 2 ^ 253) ≤ 2 ^ 24 - 1 := divNearestEven_le hscale (by omega)
    omega

/-! ### Rounding to a pattern -/

/-- Every finite datum is a multiple of the scale or lies below the 24-bit significands of that scale. -/
theorem lt_or_scale_dvd_of_fval {w : Word} {u : Bool} {j : ℕ} (h : fval w = some (.finite u j)) (shift : ℕ) :
    j < 2 ^ 23 * 2 ^ shift ∨ 2 ^ shift ∣ j := by
  obtain ⟨shift', q, -, hq, rfl, -⟩ := scaled_of_fval h
  obtain hle | hlt := le_or_gt shift shift'
  · exact .inr ((pow_dvd_pow 2 hle).mul_left q)
  · left
    calc q * 2 ^ shift' < 2 ^ 24 * 2 ^ shift' := by gcongr
      _ = 2 ^ 23 * 2 ^ (shift' + 1) := carry_units shift'
      _ ≤ 2 ^ 23 * 2 ^ shift := Nat.mul_le_mul_left _ (Nat.pow_le_pow_right two_pos hlt)

/-- Among the multiples of the scale and all numbers below its 24-bit significands, the rounded one is nearest, and even
when another is as near (R101). -/
theorem scaled_divNearestEven_nearest {n d shift : ℕ} (hd : 0 < d) (hscaled : shift = 0 ∨ 2 ^ 23 * (d * 2 ^ shift) ≤ n)
    {j : ℤ} (hj : j < 2 ^ 23 * 2 ^ shift ∨ 2 ^ shift ∣ j) :
    NearAs n d (divNearestEven n (d * 2 ^ shift) * 2 ^ shift) (divNearestEven n (d * 2 ^ shift) % 2 = 0) j := by
  have hscale : 0 < d * 2 ^ shift := by positivity
  have hnear := divNearestEven_nearest n hscale
  generalize divNearestEven n (d * 2 ^ shift) = q at *
  have hunscale (m : ℤ) : m * (d * 2 ^ shift : ℕ) = m * 2 ^ shift * d := by push_cast; ring
  simp only [NearAs, hunscale] at hnear ⊢
  push_cast
  by_cases hdvd : (2 : ℤ) ^ shift ∣ j
  case pos =>
    obtain ⟨m, rfl⟩ := hdvd
    rw [mul_comm _ m]
    obtain ⟨hle, htie⟩ := hnear m
    exact ⟨hle, fun hne => htie fun heq => hne (by rw [heq])⟩
  case neg =>
    have hbelow : j * d < 2 ^ 23 * 2 ^ shift * d := by gcongr; exact hj.resolve_right hdvd
    have hlow : (2 : ℤ) ^ 23 * 2 ^ shift * d ≤ n := by
      obtain rfl | hlow := hscaled
      · exact absurd (one_dvd j) hdvd
      · zify at hlow
        linarith
    obtain ⟨hle, -⟩ := hnear (2 ^ 23)
    omega

/-! ### Signed units -/

@[simp] theorem signedUnits_false (j : ℕ) : signedUnits false j = j := rfl

@[simp] theorem signedUnits_true (j : ℕ) : signedUnits true j = -(j : ℤ) := rfl

theorem signedUnits_not (u : Bool) (j : ℕ) : signedUnits (!u) j = -signedUnits u j := by cases u <;> simp

/-- Distances between signed numbers of units, seen from the side of the first sign. -/
theorem natAbs_signedUnits_sub (neg u : Bool) (n j d : ℕ) :
    (signedUnits neg n - signedUnits u j * d).natAbs = ((n : ℤ) - signedUnits (neg ^^ u) j * d).natAbs := by
  cases neg with
  | false => simp
  | true =>
    rw [← Int.natAbs_neg, Bool.true_xor, signedUnits_not, signedUnits_true]
    ring_nf

theorem signedUnits_eq_iff (neg u : Bool) (j k : ℕ) :
    signedUnits u j = signedUnits neg k ↔ signedUnits (neg ^^ u) j = k := by
  cases neg with
  | false => simp
  | true => rw [Bool.true_xor, signedUnits_not, signedUnits_true, neg_eq_iff_eq_neg]

theorem signedUnits_lt_or_dvd (neg : Bool) {j a b : ℕ} (h : j < a ∨ b ∣ j) :
    signedUnits neg j < a ∨ (b : ℤ) ∣ signedUnits neg j := by
  cases neg with
  | false => exact h.imp Int.ofNat_lt.mpr Int.natCast_dvd_natCast.mpr
  | true => exact h.imp (by rw [signedUnits_true]; omega) fun hdvd => (Int.natCast_dvd_natCast.mpr hdvd).neg_right

/-! ### The two branches of `round` -/

theorem round_of_overflow (neg : Bool) {n d : ℕ} (h : (2 ^ 25 - 1) * 2 ^ 252 * d ≤ n) : round neg n d = .infinity neg :=
  if_pos h

theorem round_of_lt_overflow (neg : Bool) {n d : ℕ} (h : n < (2 ^ 25 - 1) * 2 ^ 252 * d) :
    round neg n d = .finite neg
      (divNearestEven n (d * 2 ^ significandShift (n / d)) * 2 ^ significandShift (n / d)) :=
  if_neg (not_le.mpr h)

/-- The pattern of the rounded datum is correctly rounded (R101). -/
theorem isRounded_fbits_round (neg : Bool) (n : ℕ) {d : ℕ} (hd : 0 < d) : IsRounded neg n d (fbits (round neg n d)) := by
  constructor
  case left =>
    intro hover
    rw [round_of_overflow neg hover, fbits]
  case right =>
    intro hbelow
    obtain ⟨hscaled, hfin⟩ := scaled_divNearestEven hd hbelow
    obtain ⟨-, hlower⟩ := significandShift_ratio n hd
    rw [round_of_lt_overflow neg hbelow]
    generalize significandShift (n / d) = shift at *
    have hnear {j : ℤ} (hj) := scaled_divNearestEven_nearest (j := j) hd hlower hj
    generalize divNearestEven n (d * 2 ^ shift) = q at *
    rw [fbits_scaled neg hscaled]
    refine ⟨_, fval_scaled neg hscaled hfin, fun w u j hw => ?_⟩
    have hj : signedUnits (neg ^^ u) j < 2 ^ 23 * 2 ^ shift ∨ 2 ^ shift ∣ signedUnits (neg ^^ u) j := by
      exact_mod_cast signedUnits_lt_or_dvd (neg ^^ u) (lt_or_scale_dvd_of_fval hw shift)
    obtain ⟨hle, htie⟩ := hnear hj
    have hself : signedUnits (neg ^^ neg) (q * 2 ^ shift) = (q * 2 ^ shift : ℕ) := by simp
    rw [natAbs_signedUnits_sub, natAbs_signedUnits_sub, hself, Ne, signedUnits_eq_iff,
      getLsbD_zero_withSign neg (by omega)]
    refine ⟨hle, fun hne heq => decide_eq_false ?_⟩
    have heven := htie hne heq
    omega

theorem fbits_zero (neg : Bool) : fbits (.finite neg 0) = zeroBits neg :=
  fbits_scaled neg (shift := 0) (q := 0) ⟨by norm_num, .inl rfl⟩

/-- At half a unit of `2^-149` and below a ratio is rounded to zero (R101). -/
theorem round_of_le_half (neg : Bool) {n d : ℕ} (hd : 0 < d) (h : 2 * n ≤ d) : round neg n d = .finite neg 0 := by
  have hunits : n / d = 0 := Nat.div_eq_of_lt (by omega)
  have hshift : significandShift 0 = 0 := by decide
  have hround : divNearestEven n d = 0 := by
    have hle : divNearestEven n d ≤ 1 := divNearestEven_le hd (by omega)
    obtain ⟨hbound, -, htie⟩ := divNearestEven_spec n hd
    obtain hzero | hone : divNearestEven n d = 0 ∨ divNearestEven n d = 1 := by omega
    · exact hzero
    · rw [hone, one_mul] at hbound htie
      omega
  have hbelow : n < (2 ^ 25 - 1) * 2 ^ 252 * d :=
    (show n < d by omega).trans_le (Nat.le_mul_of_pos_left d (by norm_num))
  rw [round_of_lt_overflow neg hbelow, hunits, hshift, pow_zero, mul_one, mul_one, hround]

/-- Settles O38: the rounded pattern is nearest among all patterns, and half a unit is rounded to zero. -/
theorem roundingIsToNearestTiesToEven : Obligations.RoundingIsToNearestTiesToEven :=
  fun neg n _ _ hd => ⟨isRounded_fbits_round neg n hd, fun h => by rw [round_of_le_half neg hd h, fbits_zero]⟩

end Sys2Proof.Machine
end

-- ==== Sys2Proof/Proofs: float arithmetic ====
section
/-! The four float instructions (R102 to R107): each operation keeps its table, and the instruction stores its result. -/

namespace Sys2Proof.Machine

/-! ### NaN operands -/

/-- `nanGen` is a NaN whether it takes the free pattern or the default (R102). -/
theorem fval_nanGen (op : FloatOp) (x y : Word) : fval (nanGen op x y) = none := by
  rw [nanGen, fval_eq_none_iff, ← isNaN_iff]
  split
  next h => exact h
  next => decide

/-- A NaN on either side decides each operation before any other row of its table (R107). -/
theorem float_ops_of_nan {x y : Word} (h : fval x = none ∨ fval y = none) :
    addFloat x y = nanGen .add x y ∧ subFloat x y = nanGen .sub x y ∧
    mulFloat x y = nanGen .mul x y ∧ divFloat x y = nanGen .div x y := by
  rw [addFloat, subFloat, mulFloat, divFloat]
  obtain hx | hy := h
  · simp only [hx, and_self]
  · cases fval x <;> simp only [hy, and_self]

/-- Settles O43: both values of `nanGen` are NaNs, and each operation tests its operands for a NaN first. -/
theorem naNOperandsGiveNaNResults : Obligations.NaNOperandsGiveNaNResults :=
  ⟨fval_nanGen, fun _ _ => float_ops_of_nan⟩

/-! ### The rules of the operations -/

/-- Zero units are the two zero patterns (R100). -/
theorem eq_zeroBits_iff {v : Word} {s : Bool} {m : ℕ} (h : fval v = some (.finite s m)) (neg : Bool) :
    v = zeroBits neg ↔ s = neg ∧ m = 0 := by
  rw [← fbits_of_fval h]
  constructor
  · intro heq
    have hzero : fval (zeroBits neg) = some (.finite neg 0) := by cases neg <;> decide
    rw [← heq, fbits_of_fval h, h] at hzero
    simpa using hzero
  · rintro ⟨rfl, rfl⟩
    exact fbits_zero s

/-- A rounded sum: a zero of the sign that the rule gives, or the correctly rounded pattern (R103, R104). -/
theorem roundedSum_rule (z : ℤ) {negZero : Bool} {P : Prop} [Decidable P] (hzero : P ↔ negZero = true) :
    if z = 0 then (if P then roundedSum z negZero = 0x80000000#32 else roundedSum z negZero = 0x00000000#32)
    else IsRounded (decide (z < 0)) z.natAbs 1 (roundedSum z negZero) := by
  split_ifs with hz hP
  · rw [roundedSum, if_pos hz, hzero.mp hP, fbits_zero]
    rfl
  · rw [roundedSum, if_pos hz, Bool.eq_false_iff.mpr (mt hzero.mpr hP), fbits_zero]
    rfl
  · rw [roundedSum, if_neg hz]
    exact isRounded_fbits_round _ _ one_pos

/-- `addFloat` keeps its table: an exact zero sum is `-0` for `-0 + -0` only, and any other sum of numbers is rounded once
(R103). -/
theorem addFloat_rule (x y : Word) : AddFloatRule x y (addFloat x y) := by
  rw [AddFloatRule, addFloat]
  cases hx : fval x with
  | none => rfl
  | some p =>
    cases hy : fval y with
    | none => rfl
    | some q =>
      match p, q with
      | .infinity s, .infinity t => dsimp only; split <;> rfl
      | .infinity _, .finite _ _ => rfl
      | .finite _ _, .infinity _ => rfl
      | .finite s m, .finite t n =>
        refine roundedSum_rule _ ?_
        have hnegX : x = 0x80000000#32 ↔ s = true ∧ m = 0 := eq_zeroBits_iff hx true
        have hnegY : y = 0x80000000#32 ↔ t = true ∧ n = 0 := eq_zeroBits_iff hy true
        rw [hnegX, hnegY]
        simp [and_assoc]

/-! ### The sign flip -/

/-- A datum with its sign inverted. -/
def FloatNumber.flip : FloatNumber → FloatNumber
  | .infinity s => .infinity (!s)
  | .finite s m => .finite (!s) m

/-- Inverting bit 31 of a pattern inverts the sign of its datum, and a NaN stays a NaN (R100). -/
theorem fval_flip (y : Word) : fval (y ^^^ 0x80000000#32) = (fval y).map FloatNumber.flip := by
  have hsign : floatSign (y ^^^ 0x80000000#32) = !floatSign y := by simp [floatSign]
  have hexp : floatExp (y ^^^ 0x80000000#32) = floatExp y := by
    rw [floatExp, BitVec.extractLsb'_xor]
    simp [floatExp]
  have hfrac : floatFrac (y ^^^ 0x80000000#32) = floatFrac y := by
    rw [floatFrac, BitVec.extractLsb'_xor]
    simp [floatFrac]
  have hnan : isNaN (y ^^^ 0x80000000#32) = isNaN y := by rw [isNaN, isNaN, hexp, hfrac]
  rw [fval, fval, hnan, hsign, hexp, hfrac]
  split_ifs <;> rfl

/-- `subFloat` keeps its table: an exact zero difference is `-0` for `-0 - +0` only (R104). -/
theorem subFloat_rule (x y : Word) : SubFloatRule x y (subFloat x y) := by
  rw [SubFloatRule, subFloat]
  cases hx : fval x with
  | none => rfl
  | some p =>
    cases hy : fval y with
    | none => rfl
    | some q =>
      match p, q with
      | .infinity s, .infinity t => dsimp only; split <;> rfl
      | .infinity _, .finite _ _ => rfl
      | .finite _ _, .infinity t =>
        exact infinityBits_of_fval (by rw [fval_flip, hy]; rfl)
      | .finite s m, .finite t n =>
        refine roundedSum_rule _ ?_
        have hnegX : x = 0x80000000#32 ↔ s = true ∧ m = 0 := eq_zeroBits_iff hx true
        have hposY : y = 0x00000000#32 ↔ t = false ∧ n = 0 := eq_zeroBits_iff hy false
        rw [hnegX, hposY]
        simp [and_assoc]

/-- A difference is the sum with the sign of the right operand inverted, unless both are a NaN (R104). -/
theorem subFloat_eq_addFloat_flip (x : Word) {y : Word} (hy : fval y ≠ none) :
    subFloat x y = addFloat x (y ^^^ 0x80000000#32) ∨
    (fval (subFloat x y) = none ∧ fval (addFloat x (y ^^^ 0x80000000#32)) = none) := by
  obtain ⟨q, hq⟩ := Option.ne_none_iff_exists'.mp hy
  rw [subFloat, addFloat, fval_flip, hq, Option.map_some]
  cases hx : fval x with
  | none => exact .inr ⟨fval_nanGen _ _ _, fval_nanGen _ _ _⟩
  | some p =>
    match p, q with
    | .infinity s, .infinity t =>
      obtain rfl | hst := eq_or_ne s t
      · right
        simp [FloatNumber.flip, fval_nanGen]
      · left
        have hflip : s = !t := Bool.eq_not_of_ne hst
        simp only [FloatNumber.flip, if_neg hst, if_pos hflip]
    | .infinity _, .finite _ _ => exact .inl rfl
    | .finite _ _, .infinity _ => exact .inl rfl
    | .finite s m, .finite t n =>
      left
      simp only [FloatNumber.flip, signedUnits_not, sub_eq_add_neg]

/-- `mulFloat` keeps its table: the exact product of units is a ratio over `2^149`, rounded once (R105). -/
theorem mulFloat_rule (x y : Word) : MultFloatRule x y (mulFloat x y) := by
  rw [MultFloatRule, mulFloat]
  cases fval x with
  | none => rfl
  | some p =>
    cases fval y with
    | none => rfl
    | some q =>
      match p, q with
      | .infinity _, .infinity _ => rfl
      | .infinity _, .finite _ n => dsimp only; split <;> rfl
      | .finite _ m, .infinity _ => dsimp only; split <;> rfl
      | .finite _ m, .finite _ n =>
        dsimp only
        split
        next => rfl
        next => exact isRounded_fbits_round _ _ (by positivity)

/-- `divFloat` keeps its table: zero divisors are answered before the exact quotient is rounded once (R106). -/
theorem divFloat_rule (x y : Word) : DivFloatRule x y (divFloat x y) := by
  rw [DivFloatRule, divFloat]
  cases fval x with
  | none => rfl
  | some p =>
    cases fval y with
    | none => rfl
    | some q =>
      match p, q with
      | .infinity _, .infinity _ => rfl
      | .infinity _, .finite _ _ => rfl
      | .finite _ _, .infinity _ => rfl
      | .finite _ m, .finite _ n =>
        dsimp only
        split_ifs with hn hm hm
        · rfl
        · rfl
        · rfl
        · exact isRounded_fbits_round _ _ (Nat.pos_of_ne_zero hn)

/-! ### The instructions -/

/-- An instruction that means a store of a word that keeps the rule (R102). -/
theorem storesByRule_of_storeWord {rule : Word → Word → Word → Prop} {i : Instr} {s : State} {d r : Word}
    (hm : s.mem.wf = true) (hrule : rule s.a s.b r) (hexec : exec i s = storeWord d r s) : StoresByRule rule i s d := by
  obtain ⟨hstores, hfaults⟩ := storesOrFaults_of_storeWord hm hexec
  refine ⟨fun hin => ?_, hfaults⟩
  obtain ⟨t, ht, honly⟩ := hstores hin
  exact ⟨t, r, ht, hrule, honly⟩

/-- Settles O39: the instruction stores the sum, which keeps the rule. -/
theorem addfloatStoresTheRoundedSum : Obligations.AddfloatStoresTheRoundedSum :=
  fun _ s hm => ⟨encodeBytes_eq _, storesByRule_of_storeWord hm (addFloat_rule s.a s.b) rfl⟩

/-- Settles O40: the instruction stores the difference, which keeps the rule and is the sum with the flipped operand. -/
theorem subfloatStoresTheRoundedDifference : Obligations.SubfloatStoresTheRoundedDifference := by
  unfold Obligations.SubfloatStoresTheRoundedDifference
  constructor
  · intro d s hm
    exact ⟨encodeBytes_eq _, storesByRule_of_storeWord hm (subFloat_rule s.a s.b) rfl⟩
  · intro x y hy
    obtain heq | ⟨hsub, hadd⟩ := subFloat_eq_addFloat_flip x hy
    · exact ⟨by rw [heq], fun _ => heq⟩
    · exact ⟨iff_of_true hsub hadd, fun hne => absurd hsub hne⟩

/-- Settles O41: the instruction stores the product, which keeps the rule. -/
theorem multfloatStoresTheRoundedProduct : Obligations.MultfloatStoresTheRoundedProduct :=
  fun _ s hm => ⟨encodeBytes_eq _, storesByRule_of_storeWord hm (mulFloat_rule s.a s.b) rfl⟩

/-- Settles O42: the instruction stores the quotient, which keeps the rule. -/
theorem divfloatStoresTheRoundedQuotient : Obligations.DivfloatStoresTheRoundedQuotient :=
  fun _ s hm => ⟨encodeBytes_eq _, storesByRule_of_storeWord hm (divFloat_rule s.a s.b) rfl⟩

end Sys2Proof.Machine
end

-- ==== Sys2Proof/Proofs: compares ====
section
/-! The two compares (R110 to R114). A compare finds one relation of `A` to `B`, and the four flags say which; so each order
is tied to its relation once, and the flags, their register and the jumps are read off the relation. -/

namespace Sys2Proof.Machine

/-! ### The relation of two operands -/

/-- The relation answers three questions about its operands: is the first greater, less, the same. -/
structure Relation.Decides (rel : Relation) (isGreater isLess isSame : Prop) : Prop where
  greater_iff : rel = .greater ↔ isGreater
  less_iff : rel = .less ↔ isLess
  equal_iff : rel = .equal ↔ isSame

/-- The three answers carry over to equivalent questions. -/
theorem Relation.Decides.congr {rel : Relation} {g l e g' l' e' : Prop} (h : rel.Decides g l e) (hg : g ↔ g')
    (hl : l ↔ l') (he : e ↔ e') : rel.Decides g' l' e' :=
  ⟨h.greater_iff.trans hg, h.less_iff.trans hl, h.equal_iff.trans he⟩

theorem compareIntegers_decides (x y : ℤ) : (compareIntegers x y).Decides (y < x) (x < y) (x = y) := by
  obtain hlt | rfl | hgt := lt_trichotomy x y
  · rw [compareIntegers, if_neg hlt.asymm, if_pos hlt]
    constructor <;> simp [hlt, hlt.le, hlt.ne]
  · rw [compareIntegers, if_neg (lt_irrefl x), if_neg (lt_irrefl x)]
    constructor <;> simp
  · rw [compareIntegers, if_pos hgt]
    constructor <;> simp [hgt, hgt.le, hgt.ne']

/-- `cmpint` finds the signed order of the two words (R111). -/
theorem compareInt_decides (x y : Word) :
    (compareInt x y).Decides (y.toInt < x.toInt) (x.toInt < y.toInt) (x.toInt = y.toInt) := by
  simpa only [compareInt, sint_eq_toInt] using compareIntegers_decides x.toInt y.toInt

/-- Two integers are never unordered (R111). -/
theorem compareInt_ne_unordered (x y : Word) : compareInt x y ≠ .unordered := by
  unfold compareInt compareIntegers
  split_ifs <;> simp

/-- The value of a finite number is its signed units, scaled (R100). -/
theorem unitsValue_eq_signedUnits (neg : Bool) (units : ℕ) :
    unitsValue neg units = (signedUnits neg units : ℚ) * (2 : ℚ) ^ (-149 : ℤ) := by
  cases neg <;> simp [unitsValue]

theorem signedUnits_lt_iff (s t : Bool) (m n : ℕ) :
    signedUnits s m < signedUnits t n ↔ unitsValue s m < unitsValue t n := by
  rw [unitsValue_eq_signedUnits, unitsValue_eq_signedUnits, mul_lt_mul_iff_left₀ (by positivity), Int.cast_lt]

theorem signedUnits_eq_iff_unitsValue (s t : Bool) (m n : ℕ) :
    signedUnits s m = signedUnits t n ↔ unitsValue s m = unitsValue t n := by
  rw [unitsValue_eq_signedUnits, unitsValue_eq_signedUnits, mul_left_inj' (by positivity), Int.cast_inj]

/-- The comparator of two numbers finds the order of the extended reals (R112). -/
theorem compareNumbers_decides (p q : FloatNumber) : (compareNumbers p q).Decides (q.Less p) (p.Less q) (p.Same q) := by
  cases p with
  | infinity s =>
    cases q with
    | infinity t =>
      cases s <;> cases t <;> constructor <;> simp [compareNumbers, FloatNumber.Less, FloatNumber.Same]
    | finite t n => cases s <;> constructor <;> simp [compareNumbers, FloatNumber.Less, FloatNumber.Same]
  | finite s m =>
    cases q with
    | infinity t => cases t <;> constructor <;> simp [compareNumbers, FloatNumber.Less, FloatNumber.Same]
    | finite t n =>
      exact (compareIntegers_decides (signedUnits s m) (signedUnits t n)).congr (signedUnits_lt_iff t s n m)
        (signedUnits_lt_iff s t m n) (signedUnits_eq_iff_unitsValue s t m n)

/-- Two patterns that are not NaNs are compared as numbers (R112). -/
theorem compareFloat_of_fval {x y : Word} {p q : FloatNumber} (hx : fval x = some p) (hy : fval y = some q) :
    compareFloat x y = compareNumbers p q := by
  rw [compareFloat, hx, hy]

/-- A NaN on either side is unordered (R112). -/
theorem compareFloat_of_nan {x y : Word} (h : fval x = none ∨ fval y = none) : compareFloat x y = .unordered := by
  unfold compareFloat
  obtain hx | hy := h
  · rw [hx]
  · cases hx : fval x <;> rw [hy]

/-- `cmpfloat` finds the order of the floats; a NaN has no place in it (R112). -/
theorem compareFloat_decides (x y : Word) :
    (compareFloat x y).Decides (FloatLess y x) (FloatLess x y) (FloatSame x y) := by
  by_cases hnan : fval x = none ∨ fval y = none
  · rw [compareFloat_of_nan hnan]
    obtain h | h := hnan <;> constructor <;> simp [FloatLess, FloatSame, h]
  · obtain ⟨hx, hy⟩ := not_or.mp hnan
    obtain ⟨p, hp⟩ := Option.ne_none_iff_exists'.mp hx
    obtain ⟨q, hq⟩ := Option.ne_none_iff_exists'.mp hy
    rw [compareFloat_of_fval hp hq]
    refine (compareNumbers_decides p q).congr ?_ ?_ ?_ <;> simp [FloatLess, FloatSame, hp, hq]

/-! ### The flags of a relation -/

/-- Each flag says which relation was found (R110). -/
theorem flagsOf_eq (rel : Relation) :
    flagsOf rel = ⟨decide (rel = .greater), decide (rel = .less), decide (rel = .equal), decide (rel ≠ .equal)⟩ := by
  cases rel <;> rfl

/-- `cmpint` writes the flags of the integer relation and advances (R111). -/
theorem exec_cmpint (v : Word) (s : State) :
    exec (.cmpint v) s = .next (s.setFlags (flagsOf (compareInt s.a s.b))).advance := rfl

/-- `cmpfloat` writes the flags of the float relation and advances (R112). -/
theorem exec_cmpfloat (v : Word) (s : State) :
    exec (.cmpfloat v) s = .next (s.setFlags (flagsOf (compareFloat s.a s.b))).advance := rfl

/-- New flags and then the advance, as one update of the state. -/
theorem State.setFlags_advance (s : State) (f : Flags) :
    (s.setFlags f).advance = { s with flags := f, pc := s.pc + 5#32 } := rfl

/-- Settles O44: the flags are those of the relation, which is the signed order. -/
theorem cmpintWritesTheSignedOrder : Obligations.CmpintWritesTheSignedOrder := by
  unfold Obligations.CmpintWritesTheSignedOrder
  intro v s
  have h := compareInt_decides s.a s.b
  refine ⟨encodeBytes_eq _, ?_⟩
  simp only [exec_cmpint, State.setFlags_advance, flagsOf_eq, h.greater_iff, h.less_iff, h.equal_iff, ne_eq]

/-- Settles O45: the flags are those of the relation, unordered for a NaN and else the order of the floats. -/
theorem cmpfloatWritesTheFloatOrder : Obligations.CmpfloatWritesTheFloatOrder := by
  unfold Obligations.CmpfloatWritesTheFloatOrder
  intro v s
  have h := compareFloat_decides s.a s.b
  refine ⟨encodeBytes_eq _, flagsOf (compareFloat s.a s.b), exec_cmpfloat v s, ?_⟩
  split_ifs with hnan
  · rw [compareFloat_of_nan hnan]
    rfl
  · simp only [flagsOf_eq, decide_eq_true_eq, h.greater_iff, h.less_iff, h.equal_iff, ne_eq, and_self]

/-! ### The register FLAGS -/

/-- The flags whose register FLAGS holds `v` (R16). -/
def Flags.ofBits (v : BitVec 4) : Flags := ⟨v.getLsbD 0, v.getLsbD 1, v.getLsbD 2, v.getLsbD 3⟩

@[simp] theorem Flags.ofBits_bits (f : Flags) : Flags.ofBits f.bits = f := by
  obtain ⟨_ | _, _ | _, _ | _, _ | _⟩ := f <;> rfl

theorem Flags.eq_ofBits {f : Flags} {v : BitVec 4} (h : f.bits = v) : f = Flags.ofBits v := by
  rw [← h, Flags.ofBits_bits]

/-- The outcome of a compare in the register FLAGS (R113). -/
theorem flagsOf_bits_of_decides {rel : Relation} {g l e : Prop} (h : rel.Decides g l e) :
    (g → (flagsOf rel).bits = 0b1001#4) ∧ (l → (flagsOf rel).bits = 0b1010#4) ∧
      (e → (flagsOf rel).bits = 0b0100#4) := by
  refine ⟨fun hg => ?_, fun hl => ?_, fun he => ?_⟩
  · rw [h.greater_iff.mpr hg]; rfl
  · rw [h.less_iff.mpr hl]; rfl
  · rw [h.equal_iff.mpr he]; rfl

/-- A compare leaves one of four values in FLAGS (R113). -/
theorem flagsOf_bits_mem (rel : Relation) : (flagsOf rel).bits ∈ [0b1001#4, 0b1010#4, 0b0100#4, 0b1000#4] := by
  cases rel <;> decide

/-- Ordered operands leave one of the first three values in FLAGS (R113). -/
theorem flagsOf_bits_mem_of_ordered {rel : Relation} (h : rel ≠ .unordered) :
    (flagsOf rel).bits ∈ [0b1001#4, 0b1010#4, 0b0100#4] := by
  cases rel with
  | unordered => exact absurd rfl h
  | greater | less | equal => decide

/-- The four values are the flags of the four relations (R113). -/
theorem Flags.eq_flagsOf_of_bits_mem {f : Flags} (h : f.bits ∈ [0b1001#4, 0b1010#4, 0b0100#4, 0b1000#4]) :
    ∃ rel, f = flagsOf rel := by
  simp only [List.mem_cons, List.not_mem_nil, or_false] at h
  obtain h | h | h | h := h
  · exact ⟨.greater, Flags.eq_ofBits h⟩
  · exact ⟨.less, Flags.eq_ofBits h⟩
  · exact ⟨.equal, Flags.eq_ofBits h⟩
  · exact ⟨.unordered, Flags.eq_ofBits h⟩

/-- EQ and NE are opposite, and EQ, GT and LT exclude each other (R113). -/
theorem flagsOf_exclusive (rel : Relation) : (flagsOf rel).eq ≠ (flagsOf rel).ne ∧
    ¬ ((flagsOf rel).gt = true ∧ (flagsOf rel).lt = true) ∧
    ((flagsOf rel).eq = true → (flagsOf rel).gt = false ∧ (flagsOf rel).lt = false) := by
  cases rel <;> decide

/-- Each conditional jump goes where the flags say (R121 to R126). -/
theorem exec_conditionalJumps {s : State} {f : Flags} (h : s.flags = f) (t : Word) :
    exec (.jeq t) s = .next { s with pc := if f.eq then t else s.pc + 5#32 } ∧
    exec (.jne t) s = .next { s with pc := if f.ne then t else s.pc + 5#32 } ∧
    exec (.jlt t) s = .next { s with pc := if f.lt then t else s.pc + 5#32 } ∧
    exec (.jle t) s = .next { s with pc := if f.lt || f.eq then t else s.pc + 5#32 } ∧
    exec (.jgt t) s = .next { s with pc := if f.gt then t else s.pc + 5#32 } ∧
    exec (.jge t) s = .next { s with pc := if f.gt || f.eq then t else s.pc + 5#32 } := by
  subst h
  exact ⟨jumpWhen_eq _ t s, jumpWhen_eq _ t s, jumpWhen_eq _ t s, jumpWhen_eq _ t s, jumpWhen_eq _ t s, jumpWhen_eq _ t s⟩

/-- Settles O46: the flags of the relation that was found, and the jumps that the flags of each row take. -/
theorem flagOutcomesAndTheJumpsTheyTake : Obligations.FlagOutcomesAndTheJumpsTheyTake := by
  unfold Obligations.FlagOutcomesAndTheJumpsTheyTake
  refine ⟨fun v s t ht => ?cmpint, fun v s t ht => ?cmpfloat, fun f hf => ?exclusive,
    fun row s t hrow hbits => ?jumps, fun s => State.boot_flags_bits s.mem⟩
  case cmpint =>
    obtain rfl := next_unique ht (exec_cmpint v s)
    exact ⟨flagsOf_bits_mem_of_ordered (compareInt_ne_unordered s.a s.b),
      flagsOf_bits_of_decides (compareInt_decides s.a s.b)⟩
  case cmpfloat =>
    obtain rfl := next_unique ht (exec_cmpfloat v s)
    obtain ⟨hgreater, hless, hequal⟩ := flagsOf_bits_of_decides (compareFloat_decides s.a s.b)
    refine ⟨flagsOf_bits_mem _, hgreater, hless, hequal, fun hnan => ?_⟩
    rw [State.advance_flags, State.setFlags_flags, compareFloat_of_nan hnan]
    rfl
  case exclusive =>
    obtain ⟨rel, rfl⟩ := Flags.eq_flagsOf_of_bits_mem hf
    exact flagsOf_exclusive rel
  case jumps =>
    simp only [List.mem_cons, List.not_mem_nil, or_false] at hrow
    obtain rfl | rfl | rfl | rfl | rfl := hrow <;> exact exec_conditionalJumps (Flags.eq_ofBits hbits) t

/-! ### Load, load, compare, jump -/

/-- A running machine whose `pc` is `k` bytes on in the same memory stands at the instruction there (R50, R141). -/
theorem State.atInstr_of_pc_add {s t : State} {i : Instr} {k : Word} {room : ℕ} (hrun : t.status = .running)
    (hmem : t.mem = s.mem) (hpc : t.pc = s.pc + k) (hroom : uint s.pc + room ≤ s.mem.size.val)
    (hk : uint k + 5 ≤ room) (hcode : s.mem.HoldsInstr (s.pc + k) (encode i)) : t.AtInstr i := by
  have hin : s.mem.inBounds s.pc (uint k) := show uint s.pc + uint k ≤ _ by omega
  refine ⟨⟨hrun, ?_⟩, by rwa [hmem, hpc]⟩
  rw [hmem, hpc, Memory.uint_add_of_inBounds hin]
  omega

/-- A run begins with the step of its first instruction (R141). -/
theorem core_run_succ {s t : State} {i : Instr} (hat : s.AtInstr i) (hexec : exec i s = .next t) (k : ℕ) :
    Sys2Proof.core.run (k + 1) s = Sys2Proof.core.run k t := by
  have hstep : Sys2Proof.core.step s = .next t := hat.step_eq.trans hexec
  simp only [Host.Core.run, hstep]

/-- Two literals are loaded and compared, and the jump is taken exactly when their relation is the one that it tests for
(R114). -/
theorem run_load_load_compare_jump {s : State} {a b target : Word} {compare jump : Instr}
    {rel : Word → Word → Relation} {test : Flags → Bool} {taken : Prop} (hrun : s.status = .running)
    (hroom : uint s.pc + 20 ≤ s.mem.size.val) (hloadA : s.mem.HoldsInstr s.pc (encode (.loadai a)))
    (hloadB : s.mem.HoldsInstr (s.pc + 5#32) (encode (.loadbi b)))
    (hcompare : s.mem.HoldsInstr (s.pc + 10#32) (encode compare))
    (hjump : s.mem.HoldsInstr (s.pc + 15#32) (encode jump))
    (hexecCompare : ∀ s, exec compare s = .next (s.setFlags (flagsOf (rel s.a s.b))).advance)
    (hexecJump : ∀ s, exec jump s = jumpWhen (test s.flags) target s)
    (htest : test (flagsOf (rel a b)) = true ↔ taken) :
    ∃ t : State, Sys2Proof.core.run 4 s = .next t ∧ t.status = .running ∧
      (taken → t.pc = target) ∧ (¬ taken → t.pc = s.pc + 20#32) := by
  let s₁ := (s.setReg .a a).advance
  let s₂ := (s₁.setReg .b b).advance
  let s₃ := (s₂.setFlags (flagsOf (rel a b))).advance
  have hpc₂ : s₂.pc = s.pc + 10#32 := BitVec.add_assoc s.pc 5#32 5#32
  have hpc₃ : s₃.pc = s.pc + 15#32 := (congrArg (· + 5#32) hpc₂).trans (BitVec.add_assoc s.pc 10#32 5#32)
  have hpc₄ : s₃.pc + 5#32 = s.pc + 20#32 := (congrArg (· + 5#32) hpc₃).trans (BitVec.add_assoc s.pc 15#32 5#32)
  have hat₀ : s.AtInstr (.loadai a) := ⟨⟨hrun, by omega⟩, hloadA⟩
  have hat₁ : s₁.AtInstr (.loadbi b) := State.atInstr_of_pc_add (s := s) hrun rfl rfl hroom (by decide) hloadB
  have hat₂ : s₂.AtInstr compare := State.atInstr_of_pc_add (s := s) hrun rfl hpc₂ hroom (by decide) hcompare
  have hat₃ : s₃.AtInstr jump := State.atInstr_of_pc_add (s := s) hrun rfl hpc₃ hroom (by decide) hjump
  have hrun₄ : Sys2Proof.core.run 4 s =
      .next { s₃ with pc := if test (flagsOf (rel a b)) = true then target else s₃.pc + 5#32 } := calc
    Sys2Proof.core.run 4 s
    _ = Sys2Proof.core.run 3 s₁ := core_run_succ hat₀ rfl 3
    _ = Sys2Proof.core.run 2 s₂ := core_run_succ hat₁ rfl 2
    _ = Sys2Proof.core.run 1 s₃ := core_run_succ hat₂ (hexecCompare s₂) 1
    _ = _ := core_run_succ hat₃ ((hexecJump s₃).trans (jumpWhen_eq _ target s₃)) 0
  exact ⟨_, hrun₄, hrun, fun h => if_pos (htest.mpr h), fun h => (if_neg (mt htest.mp h)).trans hpc₄⟩

/-- GT or EQ after `cmpint` is the signed `≥` (R114). -/
theorem gt_or_eq_compareInt_iff (x y : Word) :
    ((flagsOf (compareInt x y)).gt || (flagsOf (compareInt x y)).eq) = true ↔ y.toInt ≤ x.toInt := by
  have h := compareInt_decides x y
  simp only [flagsOf_eq, Bool.or_eq_true, decide_eq_true_eq, h.greater_iff, h.equal_iff]
  omega

/-- LT after `cmpfloat` is the order of the floats (R114). -/
theorem lt_compareFloat_iff (x y : Word) : (flagsOf (compareFloat x y)).lt = true ↔ FloatLess x y := by
  rw [flagsOf_eq, decide_eq_true_eq, (compareFloat_decides x y).less_iff]

/-- Settles O47: the two programs run alike, and the test of each jump is the order that it is named after. -/
theorem compareAndBranchProperties : Obligations.CompareAndBranchProperties := by
  unfold Obligations.CompareAndBranchProperties
  intro s a b v target hrun hroom hloadA hloadB
  exact ⟨fun hcompare hjump => run_load_load_compare_jump (test := fun f => f.gt || f.eq) hrun hroom hloadA hloadB hcompare
      hjump (exec_cmpint v) (fun _ => rfl) (gt_or_eq_compareInt_iff a b),
    fun hcompare hjump => run_load_load_compare_jump (test := Flags.lt) hrun hroom hloadA hloadB hcompare
      hjump (exec_cmpfloat v) (fun _ => rfl) (lt_compareFloat_iff a b)⟩

end Sys2Proof.Machine
end

-- ==== Sys2Proof/Proofs: jumps ====
section
/-! The seven jumps (R120 to R127). A jump writes `pc` and nothing else; its target is not checked until the next fetch. -/

namespace Sys2Proof.Machine

/-- `jmp` writes `pc` (R120). -/
theorem exec_jmp (t : Word) (s : State) : exec (.jmp t) s = .next { s with pc := t } := jumpWhen_eq true t s

/-- A taken jump writes its target to `pc`, whatever the target (R127): of the shapes of an instruction, the taken jump is
the only one with a target. -/
theorem exec_of_jumpTarget {i : Instr} {s : State} {target : Word} (h : jumpTarget i s.flags = some target) :
    exec i s = .next { s with pc := target } := by
  cases exec_cases i s with
  | taken target' _ _ hj hx =>
    obtain rfl : target' = target := Option.some.inj (hj.symm.trans h)
    exact hx
  | load _ _ _ _ _ hj | compare _ _ _ hj | notTaken _ _ hj | store _ _ _ _ _ hj | print _ _ _ hj
  | memoryFault _ _ _ hj => exact absurd (hj.symm.trans h) nofun
  | arithmeticFault _ _ hi => obtain ⟨d, rfl | rfl⟩ := hi <;> exact absurd h nofun
  | halt _ hi => subst hi; exact absurd h nofun

/-- A running machine whose `pc` leaves no room for five bytes faults there (R144). -/
theorem step_of_pc_outOfBounds {s : State} (hs : s.status = .running) (h : s.mem.size.val < uint s.pc + 5) :
    step s = .next (s.faultedWith 2#2 s.pc) := by
  obtain ⟨-, hstep⟩ | ⟨_, ⟨-, hin⟩, -⟩ := step_cases hs
  · exact hstep
  · exact absurd hin (by omega)

/-- Settles O50: the jump does not look at its target, and the fetch of the next step does. -/
theorem jumpTargetsAreCheckedAtTheNextFetch : Obligations.JumpTargetsAreCheckedAtTheNextFetch :=
  fun _ s target hs hj hout =>
    ⟨_, exec_of_jumpTarget hj, rfl, step_of_pc_outOfBounds (s := { s with pc := target }) hs hout⟩

/-- Settles O48: the two special targets leave `pc` alone and advance it. -/
theorem jmpGoesToItsOperand : Obligations.JmpGoesToItsOperand :=
  fun t s => ⟨encodeBytes_eq _, exec_jmp t s, exec_jmp s.pc s, exec_jmp (s.pc + 5#32) s⟩

/-- Settles O49: each jump goes where its flags say, and the test of two flags is the `or` of their bits. -/
theorem conditionalJumpsTestTheirFlags : Obligations.ConditionalJumpsTestTheirFlags := by
  unfold Obligations.ConditionalJumpsTestTheirFlags
  intro t s
  obtain ⟨hjeq, hjne, hjlt, hjle, hjgt, hjge⟩ := exec_conditionalJumps (s := s) rfl t
  simp only [Bool.or_eq_true] at hjle hjge
  exact ⟨⟨encodeBytes_eq _, hjeq⟩, ⟨encodeBytes_eq _, hjne⟩, ⟨encodeBytes_eq _, hjlt⟩, ⟨encodeBytes_eq _, hjle⟩,
    ⟨encodeBytes_eq _, hjgt⟩, ⟨encodeBytes_eq _, hjge⟩⟩

end Sys2Proof.Machine
end

-- ==== Sys2Proof/Proofs: prints ====
section
/-! The five prints (R130 to R137) and the text of the output stream (R136). All five prints are `printWord` with an event
and an address. An integer is rendered by splitting off its last decimal digit, so its numeral is built from the left. -/

namespace Sys2Proof.Machine

/-! ### Prints -/

/-- An event and then the advance, as one update of the state. -/
theorem State.emit_advance (s : State) (e : Event) :
    (s.emit e).advance = { s with out := s.out ++ [e], pc := s.pc + 5#32 } := rfl

/-- An instruction that means a print emits the word at the address, or faults and emits nothing (R137). -/
theorem printsOrFaults_of_printWord {event : Word → Event} {i : Instr} {s : State} {addr : Word}
    (h : exec i s = printWord event addr s) : PrintsOrFaults event i s addr := by
  rw [printWord_eq] at h
  constructor
  · intro hin
    rw [if_pos hin, State.emit_advance] at h
    exact ⟨_, Memory.holdsWord_readWord _ _, h⟩
  · intro hout
    rwa [if_neg (by omega)] at h

/-- Settles O51: the three instructions mean a print of the word at the operand. -/
theorem printDirectEmitsTheWordAtTheOperand : Obligations.PrintDirectEmitsTheWordAtTheOperand :=
  fun _ _ => ⟨⟨encodeBytes_eq _, printsOrFaults_of_printWord rfl⟩, ⟨encodeBytes_eq _, printsOrFaults_of_printWord rfl⟩,
    ⟨encodeBytes_eq _, printsOrFaults_of_printWord rfl⟩⟩

/-- Settles O52: the two instructions mean a print of the word at `x[R]`, whatever the operand. -/
theorem printIndirectEmitsTheWordAtR : Obligations.PrintIndirectEmitsTheWordAtR :=
  fun _ _ => ⟨⟨encodeBytes_eq _, printsOrFaults_of_printWord rfl⟩, ⟨encodeBytes_eq _, printsOrFaults_of_printWord rfl⟩⟩

/-! ### Decimal numerals -/

/-- The digits `ds`, most significant first, are the decimal numeral of `n` without leading zeros (R136). -/
structure IsNumeral (ds : List ℕ) (n : ℕ) : Prop where
  digit : ∀ d ∈ ds, d < 10
  nonempty : ds ≠ []
  minimal : ds.head? = some 0 → ds = [0]
  value : ds.foldl (fun acc d => 10 * acc + d) 0 = n

/-- A number below ten is its own digit. -/
theorem IsNumeral.single {n : ℕ} (h : n < 10) : IsNumeral [n] n where
  digit := by simpa using h
  nonempty := by simp
  minimal := by simp
  value := by simp

/-- A digit after the numeral of a number other than zero: the leading digit stays, and it is not zero. -/
theorem IsNumeral.append_digit {ds : List ℕ} {n d : ℕ} (h : IsNumeral ds n) (hn : n ≠ 0) (hd : d < 10) :
    IsNumeral (ds ++ [d]) (10 * n + d) where
  digit := by
    simp only [List.mem_append, List.mem_singleton]
    rintro x (hx | rfl)
    · exact h.digit x hx
    · exact hd
  nonempty := by simp
  minimal := by
    rw [List.head?_append_of_ne_nil _ h.nonempty]
    intro hhead
    have hvalue := h.value
    rw [h.minimal hhead] at hvalue
    exact absurd hvalue.symm hn
  value := by rw [List.foldl_append, h.value]; rfl

/-- The digits that the model renders are the numeral in ASCII, when the fuel covers them. -/
theorem decimalDigits_isNumeral (fuel n : ℕ) (h : n < 10 ^ (fuel + 1)) :
    ∃ ds, IsNumeral ds n ∧ decimalDigits (fuel + 1) n = ds.map fun d => BitVec.ofNat 8 (0x30 + d) := by
  induction fuel generalizing n with
  | zero => exact ⟨[n], .single (by omega), by rw [decimalDigits, if_pos (by omega)]; rfl⟩
  | succ fuel ih =>
    by_cases hn : n < 10
    · exact ⟨[n], .single hn, by rw [decimalDigits, if_pos hn]; rfl⟩
    · obtain ⟨ds, hds, htext⟩ := ih (n / 10) (Nat.div_lt_of_lt_mul (by rwa [← pow_succ']))
      have hsnoc := hds.append_digit (by omega) (Nat.mod_lt n (by omega))
      rw [Nat.div_add_mod] at hsnoc
      exact ⟨_, hsnoc, by rw [decimalDigits, if_neg hn, htext, List.map_append]; rfl⟩

/-! ### The text of the output stream -/

/-- The magnitude of a word has at most ten decimal digits, which is the fuel of `intText`. -/
theorem natAbs_toInt_lt (v : Word) : v.toInt.natAbs < 10 ^ 10 := by
  have hlow := BitVec.le_toInt v
  have hhigh := BitVec.toInt_lt (x := v)
  omega

/-- The rendering of an integer: the sign and then the digits (R136). -/
theorem intText_eq (v : Word) :
    intText v = (if v.toInt < 0 then [0x2D#8] else []) ++ decimalDigits 10 v.toInt.natAbs := by
  rw [intText, sint_eq_toInt]
  split <;> rfl

/-- Settles O53: the stream renders event by event, and ten digits of fuel cover the magnitude of every word. -/
theorem textOfTheOutputStream : Obligations.TextOfTheOutputStream := by
  unfold Obligations.TextOfTheOutputStream
  refine ⟨rfl, fun _ _ => List.flatMap_cons, fun _ => rfl, fun _ => rfl, fun v => ?_⟩
  obtain ⟨ds, hds, htext⟩ := decimalDigits_isNumeral 9 v.toInt.natAbs (natAbs_toInt_lt v)
  exact ⟨ds, hds.digit, hds.nonempty, hds.minimal, hds.value, (intText_eq v).trans (by rw [htext])⟩

end Sys2Proof.Machine
end

-- ==== Sys2Proof/Proofs: steps, faults and runs ====
section
/-! The step as a whole (R141, R143, R144, R153, R154) and runs under fuel (R145, R146). What a step of a running machine can
come to is said once, by what stands at `pc`; STATE, the fault record and the ends of runs are read off from it. -/

namespace Sys2Proof.Machine

/-! ### The instruction at `pc` -/

/-- A fetched word that decodes to an instruction runs it (R141). -/
theorem step_of_decode_instr {s : State} {w : InstrWord} {i : Instr} (hs : s.fetches) (hw : s.mem.HoldsInstr s.pc w)
    (hd : decode w = .instr i) : step s = exec i s := by
  obtain ⟨hrun, hin⟩ := hs
  simp only [step_running hrun, State.fetch_of_holdsInstr hin hw, hd]

/-- Settles O6: fetch and decode hand the instruction to `exec`, and an encoding decodes to its instruction. -/
theorem stepRunsDecodedInstruction : Obligations.StepRunsDecodedInstruction :=
  ⟨fun _ _ _ => step_of_decode_instr, fun _ _ hat _ => hat.step_eq⟩

/-- The word of an instruction, given as a number of 40 bits, is placed as it is. -/
theorem State.withFetchWord_encode (s : State) (i : Instr) :
    s.withFetchWord 40 (encode i).toNat = s.placeInstr (encode i) := by
  rw [State.withFetchWord, Nat.mod_eq_of_lt (encode i).isLt, BitVec.ofNat_toNat, BitVec.setWidth_eq]

/-- With room at `pc`, placing a word is one write of its bytes there. -/
theorem State.placeInstr_of_inBounds {s : State} (hin : uint s.pc + 5 ≤ s.mem.size.val) (w : InstrWord) :
    s.placeInstr w = { s with mem := s.mem.writeBytes (uint s.pc) (bytesOfInstrWord w) } := if_pos hin

/-- The bytes of an instruction word, written in bounds, hold that word (R51). -/
theorem Memory.holdsInstr_writeBytes {m : Memory} {addr : Word} (hm : m.wf = true) (hin : uint addr + 5 ≤ m.size.val)
    (w : InstrWord) : (m.writeBytes (uint addr) (bytesOfInstrWord w)).HoldsInstr addr w := fun k hk =>
  (Memory.readByte_writeBytes_inside hm hin hk).trans (bytesOfInstrWord_getElem w k hk)

/-- Settles O7: the placement writes the five bytes at `pc`, where the next step finds them. -/
theorem placedInstructionRunsNext : Obligations.PlacedInstructionRunsNext := by
  unfold Obligations.PlacedInstructionRunsNext
  intro s i ⟨hrun, hin⟩ hm
  have hholds := Memory.holdsInstr_writeBytes hm hin (encode i)
  have hat : State.AtInstr { s with mem := s.mem.writeBytes (uint s.pc) (bytesOfInstrWord (encode i)) } i :=
    ⟨⟨hrun, by simpa using hin⟩, hholds⟩
  rw [State.withFetchWord_encode, State.placeInstr_of_inBounds hin]
  exact ⟨hat.step_eq, rfl, Memory.writeBytes_wf hm hin, hholds,
    fun _ hx => Memory.readByte_writeBytes_outside hm hin hx⟩

/-- Settles O8: the fetch is checked as a whole, before anything else. -/
theorem fetchPastTheEndFaults : Obligations.FetchPastTheEndFaults :=
  fun _ => step_of_pc_outOfBounds

/-- Settles O54: the meaning of `hlt` is one write of STATE, after which there is no step. -/
theorem hltHaltsAndLeavesEverythingElse : Obligations.HltHaltsAndLeavesEverythingElse :=
  fun _ _ => ⟨encodeBytes_eq _, rfl, rfl⟩

/-! ### What a step comes to -/

/-- What the fetch and the decoder find at `pc`; nothing where the fetch does not complete. -/
def State.decoded (s : State) : Option Decoded :=
  if s.fetches then some (decode (s.mem.readInstrWord (uint s.pc))) else none

/-- What is found at `pc` is what the word that stands there decodes to (R141). -/
theorem State.decoded_eq_some_iff {s : State} {found : Decoded} :
    s.decoded = some found ↔ ∃ w, s.fetches ∧ s.mem.HoldsInstr s.pc w ∧ decode w = found := by
  rw [State.decoded]
  constructor
  · intro h
    split at h
    · rename_i hf
      exact ⟨_, hf, Memory.holdsInstr_readInstrWord _ _, Option.some.inj h⟩
    · cases h
  · rintro ⟨w, hf, hw, rfl⟩
    rw [if_pos hf, Memory.readInstrWord_of_holdsInstr hw]

/-- A fetch past the end finds nothing (R144). -/
theorem State.decoded_of_outOfBounds {s : State} (h : s.mem.size.val < uint s.pc + 5) : s.decoded = none :=
  if_neg fun ⟨_, hin⟩ => by omega

@[simp] theorem State.faultedWith_faultCause (s : State) (cause : BitVec 2) (info : Word) :
    (s.faultedWith cause info).faultCause = cause := rfl

/-- The ways a step of a running machine `s` ends in `t`, each with what was found at `pc` (R143, 60_exceptions.md 2). -/
inductive StepEnd (s t : State) : Prop
  /-- The machine still runs. -/
  | runs {i : Instr} (hfound : s.decoded = some (.instr i)) (hi : ∀ v, i ≠ .hlt v) (hrun : t.status = .running)
      (hcause : t.faultCause = s.faultCause) (hinfo : t.faultInfo = s.faultInfo)
  /-- It executed `hlt`. -/
  | halts {v : Word} (hfound : s.decoded = some (.instr (.hlt v))) (ht : t = s.halt)
  /-- The fetch faulted. -/
  | fetchFault (hfound : s.decoded = none) (ht : t = s.faultedWith 2#2 s.pc)
  /-- The decoder faulted. -/
  | decodeFault {opc : Byte} (hfound : s.decoded = some (.invalid opc)) (ht : t = s.faultedWith 1#2 (opc.setWidth 32))
  /-- The data access faulted. -/
  | dataFault {i : Instr} {addr : Word} (hfound : s.decoded = some (.instr i)) (hi : ∀ v, i ≠ .hlt v)
      (ht : t = s.faultedWith 2#2 addr)
  /-- The divider faulted. -/
  | arithmeticFault {i : Instr} {d info : Word} (hfound : s.decoded = some (.instr i))
      (hi : i = .divint d ∨ i = .modint d) (ht : t = s.faultedWith 3#2 info)

/-- An instruction whose next state is not `Halted` is no `hlt`. -/
theorem ne_hlt_of_next {i : Instr} {s t : State} (he : exec i s = .next t) (ht : t.status ≠ .halted) (v : Word) :
    i ≠ .hlt v := by
  rintro rfl
  obtain rfl := next_unique he rfl
  exact ht rfl

/-- An instruction that leaves STATE and the fault record alone lets the machine run on. -/
theorem StepEnd.of_status {i : Instr} {s t : State} (hs : s.status = .running) (hfound : s.decoded = some (.instr i))
    (he : exec i s = .next t) (hstatus : t.status = s.status) (hcause : t.faultCause = s.faultCause)
    (hinfo : t.faultInfo = s.faultInfo) : StepEnd s t :=
  have hrun := hstatus.trans hs
  .runs hfound (ne_hlt_of_next he (by simp [hrun])) hrun hcause hinfo

/-- Every instruction completes, in one of the ends that a step has after its decoder. -/
theorem exec_end {i : Instr} {s : State} (hs : s.status = .running) (hfound : s.decoded = some (.instr i)) :
    ∃ t, exec i s = .next t ∧ StepEnd s t := by
  cases exec_cases i s with
  | load d v _ _ _ _ hx => exact ⟨_, hx, .of_status hs hfound hx (by simp) (by simp) (by simp)⟩
  | compare _ _ _ _ hx | taken _ _ _ _ hx | notTaken _ _ _ hx | store _ _ _ _ _ _ hx | print _ _ _ _ hx =>
    exact ⟨_, hx, .of_status hs hfound hx rfl rfl rfl⟩
  | memoryFault addr _ _ _ hx => exact ⟨_, hx, .dataFault hfound (ne_hlt_of_next hx (by simp)) rfl⟩
  | arithmeticFault info _ hi hx =>
    obtain ⟨d, hi⟩ := hi
    exact ⟨_, hx, .arithmeticFault hfound hi rfl⟩
  | halt v hi hx =>
    subst hi
    exact ⟨_, hx, .halts hfound rfl⟩

/-- A step of a running machine completes, in one of the six ends (R143, R182). -/
theorem step_end {s : State} (hs : s.status = .running) : ∃ t, step s = .next t ∧ StepEnd s t := by
  obtain ⟨hout, hstep⟩ | ⟨w, hf, hw, ⟨opc, hd, hstep⟩ | ⟨i, hd, hstep⟩⟩ := step_cases hs
  · exact ⟨_, hstep, .fetchFault (State.decoded_of_outOfBounds hout) rfl⟩
  · exact ⟨_, hstep, .decodeFault (State.decoded_eq_some_iff.mpr ⟨w, hf, hw, hd⟩) rfl⟩
  · rw [hstep]
    exact exec_end hs (State.decoded_eq_some_iff.mpr ⟨w, hf, hw, hd⟩)

/-! ### STATE and the fault record after a step -/

/-- Only `hlt` halts (R140, R143). -/
theorem StepEnd.halted_iff {s t : State} (h : StepEnd s t) :
    t.status = .halted ↔ ∃ v, s.decoded = some (.instr (.hlt v)) := by
  cases h with
  | runs hfound hi hrun => simp [hfound, hi, hrun]
  | halts hfound ht => simp [hfound, ht]
  | fetchFault hfound ht | decodeFault hfound ht => simp [hfound, ht]
  | dataFault hfound hi ht => simp [hfound, hi, ht]
  | arithmeticFault hfound hi ht => obtain rfl | rfl := hi <;> simp [hfound, ht]

/-- A machine that runs on keeps its fault record (R20). -/
theorem StepEnd.record_of_running {s t : State} (h : StepEnd s t) (ht : t.status = .running) :
    t.faultCause = s.faultCause ∧ t.faultInfo = s.faultInfo := by
  cases h with
  | runs _ _ _ hcause hinfo => exact ⟨hcause, hinfo⟩
  | halts _ h | fetchFault _ h | decodeFault _ h | dataFault _ _ h | arithmeticFault _ _ h => simp [h] at ht

/-- The cause of a fault says where it was met: 1 the decoder, 2 the fetch or the data access, 3 the divider (R151). -/
theorem StepEnd.fault_cases {s t : State} (h : StepEnd s t) (ht : t.status = .faulted) :
    t = s.faultedWith t.faultCause t.faultInfo ∧
    ((t.faultCause = 1#2 ∧ ∃ opc, s.decoded = some (.invalid opc)) ∨
     (t.faultCause = 2#2 ∧ ∀ opc, s.decoded ≠ some (.invalid opc)) ∨
     (t.faultCause = 3#2 ∧ ∃ d, s.decoded = some (.instr (.divint d)) ∨ s.decoded = some (.instr (.modint d)))) := by
  cases h with
  | runs _ _ hrun => simp [hrun] at ht
  | halts _ h => simp [h] at ht
  | fetchFault hfound h => subst h; exact ⟨rfl, .inr (.inl ⟨rfl, by simp [hfound]⟩)⟩
  | decodeFault hfound h => subst h; exact ⟨rfl, .inl ⟨rfl, _, hfound⟩⟩
  | dataFault hfound _ h => subst h; exact ⟨rfl, .inr (.inl ⟨rfl, by simp [hfound]⟩)⟩
  | @arithmeticFault _ d _ hfound hi h =>
    subst h
    exact ⟨rfl, .inr (.inr ⟨rfl, d, by obtain rfl | rfl := hi <;> simp [hfound]⟩)⟩

/-- The faults of the decoder are those with cause 1 (R151). -/
theorem StepEnd.decodeFault_iff {s t : State} (h : StepEnd s t) (ht : t.status = .faulted) :
    t.faultCause = 1#2 ↔ ∃ opc, s.decoded = some (.invalid opc) := by
  obtain ⟨-, ⟨hc, hfound⟩ | ⟨hc, hlegal⟩ | ⟨hc, d, hfound⟩⟩ := h.fault_cases ht
  · simp [hc, hfound]
  · simp [hc, hlegal]
  · obtain hfound | hfound := hfound <;> simp [hc, hfound]

/-- Settles O9: the clauses about a running machine are read off the end of its step. -/
theorem stateMachineTransitions : Obligations.StateMachineTransitions := by
  unfold Obligations.StateMachineTransitions
  intro s
  refine ⟨fun hs => by rw [step, hs], fun hs => by rw [step, hs], fun hs => ?_, rfl, rfl⟩
  obtain ⟨t, hstep, hend⟩ := step_end hs
  refine ⟨t, hstep, ?_, hend.record_of_running, fun ht => ⟨?_, ?_, fun hc => ?_⟩⟩
  · simpa only [State.decoded_eq_some_iff] using hend.halted_iff
  · exact (hend.fault_cases ht).2.imp And.left (Or.imp And.left And.left)
  · rw [hend.decodeFault_iff ht, exists_comm]
    simp only [State.decoded_eq_some_iff]
  · obtain ⟨-, ⟨hc', -⟩ | ⟨hc', -⟩ | ⟨-, d, hfound⟩⟩ := hend.fault_cases ht
    · exact absurd (hc.symm.trans hc') (by decide)
    · exact absurd (hc.symm.trans hc') (by decide)
    · simp only [State.decoded_eq_some_iff] at hfound
      obtain ⟨w, hf, hw, hd⟩ | ⟨w, hf, hw, hd⟩ := hfound
      · exact ⟨w, d, hf, hw, .inl hd⟩
      · exact ⟨w, d, hf, hw, .inr hd⟩

/-- Settles O10: every fault of a step is `raise`, which writes the record and STATE. -/
theorem faultingStepChangesOnlyTheRecord : Obligations.FaultingStepChangesOnlyTheRecord := by
  unfold Obligations.FaultingStepChangesOnlyTheRecord
  refine ⟨fun s t hs hstep ht => ?_, fun s => ⟨fun _ => rfl, fun _ => rfl, rfl, rfl⟩⟩
  obtain ⟨t', hstep', hend⟩ := step_end hs
  obtain rfl := Host.Outcome.next.inj (hstep'.symm.trans hstep)
  exact (hend.fault_cases ht).1

/-! ### The order of the faults -/

/-- An instruction that stores what the divider answers meets the two arithmetic faults in their order, and then the fault
of its store (R153). -/
theorem divider_faults_in_order {i : Instr} {s : State} {d : Word} {res : Except CoreFault Word}
    (hexec : exec i s = storeResult res d s) (hfault : ∀ {f}, divideFault s.a s.b = some f → res = .error f)
    (hanswer : divideFault s.a s.b = none → ∃ r, res = .ok r) :
    if s.b = 0#32 then exec i s = .next (s.faultedWith 3#2 0#32)
    else if s.a = 0x80000000#32 ∧ s.b = 0xFFFFFFFF#32 then exec i s = .next (s.faultedWith 3#2 1#32)
    else s.mem.size.val < uint d + 4 → exec i s = .next (s.faultedWith 2#2 d) := by
  rw [divideFault_eq] at hfault hanswer
  rw [hexec]
  split_ifs at hfault hanswer ⊢
  · rw [hfault rfl]
    rfl
  · rw [hfault rfl]
    rfl
  · intro hout
    obtain ⟨r, rfl⟩ := hanswer rfl
    exact storeWord_outOfBounds hout

/-- Settles O11: the fetch, the decoder, the divider and the store, in the order in which they are met. -/
theorem faultPriority : Obligations.FaultPriority := by
  unfold Obligations.FaultPriority
  intro s w hs hw
  split
  · rename_i hout
    exact step_of_pc_outOfBounds hs hout
  rename_i hin
  have hf : s.fetches := ⟨hs, by omega⟩
  split
  · rename_i hillegal
    exact step_of_decode_invalid hf hw (decode_eq_invalid_iff_range.mpr ⟨rfl, hillegal⟩)
  rintro d (hd | hd)
  · rw [step_of_decode_instr hf hw hd]
    exact divider_faults_in_order rfl divInt_of_fault fun h => (divInt_of_no_fault h).imp fun _ => And.left
  · rw [step_of_decode_instr hf hw hd]
    exact divider_faults_in_order rfl modInt_of_fault fun h => (modInt_of_no_fault h).imp fun _ => And.left

/-! ### Runs -/

/-- In a terminal state there is no step (R143). -/
theorem step_of_terminal {s : State} (h : s.terminal) : ∃ f, step s = .fault f := by
  unfold step
  cases hs : s.status with
  | running => exact absurd hs h
  | halted => exact ⟨_, rfl⟩
  | faulted => exact ⟨_, rfl⟩

/-- A run that starts in a terminal state ends there (R146). -/
theorem runFor_of_terminal {s : State} (h : s.terminal) (k : ℕ) : runFor k s = .finished s := by
  cases k with
  | zero => exact if_neg h
  | succ k =>
    obtain ⟨f, hstep⟩ := step_of_terminal h
    rw [runFor, hstep]

/-- A run goes on from the next state with one unit of fuel less (R146). -/
theorem runFor_succ {s t : State} (h : step s = .next t) (k : ℕ) : runFor (k + 1) s = runFor k t := by
  rw [runFor, h]

/-- A run has finished, in a terminal state and for every larger fuel too, or is cut off in a running state (R145). -/
theorem runFor_cases (k : ℕ) (s : State) :
    (∃ t, t.terminal ∧ ∀ j, runFor (k + j) s = .finished t) ∨
    (∃ t, t.status = .running ∧ runFor k s = .notFinished t) := by
  induction k generalizing s with
  | zero =>
    by_cases hs : s.status = .running
    · exact .inr ⟨s, hs, if_pos hs⟩
    · exact .inl ⟨s, hs, fun j => runFor_of_terminal hs (0 + j)⟩
  | succ k ih =>
    by_cases hs : s.status = .running
    · obtain ⟨u, hstep, -⟩ := step_end hs
      simpa only [Nat.add_right_comm k 1, runFor_succ hstep] using ih u
    · exact .inl ⟨s, hs, fun j => runFor_of_terminal hs (k + 1 + j)⟩

/-- Settles O56: both ends of a run are those of `runFor_cases`. -/
theorem finishedRunsAreStable : Obligations.FinishedRunsAreStable := by
  unfold Obligations.FinishedRunsAreStable
  refine ⟨fun k j s t h => ?_, fun k s hs => runFor_of_terminal hs k, fun k s t h => ?_⟩
  · obtain ⟨u, hu, hrun⟩ | ⟨u, -, hrun⟩ := runFor_cases k s
    · obtain rfl : u = t := RunEnd.finished.inj ((hrun 0).symm.trans h)
      exact ⟨hu, hrun j⟩
    · cases hrun.symm.trans h
  · obtain ⟨u, -, hrun⟩ | ⟨u, hu, hrun⟩ := runFor_cases k s
    · cases (hrun 0).symm.trans h
    · obtain rfl := RunEnd.notFinished.inj (hrun.symm.trans h)
      exact hu

end Sys2Proof.Machine
end

-- ==== Sys2Proof/Proofs: the general registers ====
section
/-! Who writes and who reads `A`, `B` and `R` (R12). To compare one instruction in two states that differ in one register,
its meaning is first taken at operands that are fixed, where no register is read, and then its operands are read from
other registers. -/

namespace Sys2Proof.Machine

/-! ### Writes -/

/-- An instruction leaves the registers alone that it is not listed to write (R12). -/
theorem exec_getReg {i : Instr} {s t : State} {d : Reg} (he : exec i s = .next t) (hd : d ∉ regsWritten i) :
    t.getReg d = s.getReg d := by
  cases exec_cases i s with
  | load e v hmem _ _ _ hx =>
    have hne : d ≠ e := fun h => hd (h ▸ hmem)
    rw [next_unique he hx, State.getReg_advance, State.getReg_setReg, if_neg hne]
  | compare _ _ _ _ hx | taken _ _ _ _ hx | notTaken _ _ _ hx | store _ _ _ _ _ _ hx | print _ _ _ _ hx
  | memoryFault _ _ _ _ hx | arithmeticFault _ _ _ hx | halt _ _ hx =>
    rw [next_unique he hx]
    cases d <;> rfl

/-- Only loads are listed to write a register (R12). -/
theorem mnemonic_of_regsWritten {i : Instr} (h : regsWritten i ≠ []) : i.mnemonic ∈
    ["loadai", "loadbi", "loadri", "loadam", "loadbm", "loadrm", "loadar", "loadbr"] := by
  cases i with
  | loadai _ | loadbi _ | loadri _ | loadam _ | loadbm _ | loadrm _ | loadar _ | loadbr _ => simp [Instr.mnemonic]
  | _ => exact absurd rfl h

/-! ### Meanings that ignore a register -/

/-- The second of two writes of a register stands. -/
theorem State.setReg_setReg_same (s : State) (d : Reg) (v w : Word) : (s.setReg d v).setReg d w = s.setReg d w := by
  cases d <;> rfl

/-- Writes of two registers commute. -/
theorem State.setReg_comm (s : State) (v w : Word) :
    ∀ {d e : Reg}, d ≠ e → (s.setReg d v).setReg e w = (s.setReg e w).setReg d v
  | .a, .b, _ | .a, .r, _ | .b, .a, _ | .b, .r, _ | .r, .a, _ | .r, .b, _ => rfl
  | .a, .a, h | .b, .b, h | .r, .r, h => absurd rfl h

theorem State.setReg_advance_comm (s : State) (d : Reg) (v : Word) :
    (s.setReg d v).advance = s.advance.setReg d v := by
  cases d <;> rfl

/-- `m` completes in every state, and a change of the register `d` before it is the same change after it, or is overwritten
where `d` is among the registers `written`. -/
def IgnoresReg (written : List Reg) (d : Reg) (m : State → Result) : Prop :=
  ∀ s v, ∃ t t', m s = .next t ∧ m (s.setReg d v) = .next t' ∧ (t' = t.setReg d v ∨ (d ∈ written ∧ t' = t))

section Meanings

variable {written : List Reg} {d : Reg}

/-- An update of the state, by what it does to a change of `d`. -/
theorem ignoresReg_update {m : State → Result} {u : State → State} (hm : ∀ s, m s = .next (u s))
    (hu : ∀ s v, u (s.setReg d v) = (u s).setReg d v ∨ (d ∈ written ∧ u (s.setReg d v) = u s)) :
    IgnoresReg written d m :=
  fun s v => ⟨u s, u (s.setReg d v), hm s, hm _, hu s v⟩

/-- A data access: what it does in bounds decides, for its fault looks at the address and at `N` only. -/
theorem ignoresReg_access {m : State → Result} {u : State → State} {addr : Word}
    (hm : ∀ s, m s = .next (if uint addr + 4 ≤ s.mem.size.val then u s else s.faultedWith 2#2 addr))
    (hu : ∀ s v, u (s.setReg d v) = (u s).setReg d v ∨ (d ∈ written ∧ u (s.setReg d v) = u s)) :
    IgnoresReg written d m := by
  refine ignoresReg_update hm fun s v => ?_
  rw [State.setReg_mem]
  split
  · exact hu s v
  · exact .inl (by cases d <;> rfl)

/-- A register write and the advance: the change of the register written is lost, that of another one stays. -/
theorem setReg_advance_ignores (e : Reg) (x : Word) (s : State) (v : Word) :
    ((s.setReg d v).setReg e x).advance = (s.setReg e x).advance.setReg d v ∨
    (d ∈ [e] ∧ ((s.setReg d v).setReg e x).advance = (s.setReg e x).advance) := by
  by_cases h : d = e
  · subst h
    exact .inr ⟨List.mem_singleton_self d, by rw [State.setReg_setReg_same]⟩
  · exact .inl (by rw [State.setReg_comm s v x h, State.setReg_advance_comm])

theorem ignoresReg_loadImmediate (e : Reg) (x : Word) : IgnoresReg [e] d fun s => .next (s.setReg e x).advance :=
  ignoresReg_update (fun _ => rfl) (setReg_advance_ignores e x)

theorem ignoresReg_loadWord (e : Reg) (addr : Word) : IgnoresReg [e] d (loadWord e addr) :=
  ignoresReg_access (loadWord_eq e addr) fun s v => by
    rw [State.setReg_mem]
    exact setReg_advance_ignores e _ s v

theorem ignoresReg_storeWord (addr x : Word) : IgnoresReg written d (storeWord addr x) :=
  ignoresReg_access (storeWord_next addr x) fun _ _ => .inl (by cases d <;> rfl)

theorem ignoresReg_storeResult (res : Except CoreFault Word) (addr : Word) :
    IgnoresReg written d (storeResult res addr) := by
  cases res with
  | error f => exact ignoresReg_update (storeResult_error f addr) fun _ _ => .inl (by cases d <;> rfl)
  | ok x => exact ignoresReg_storeWord addr x

theorem ignoresReg_printWord (event : Word → Event) (addr : Word) : IgnoresReg written d (printWord event addr) :=
  ignoresReg_access (printWord_eq event addr) fun _ _ => .inl (by cases d <;> rfl)

theorem ignoresReg_compare (rel : Relation) :
    IgnoresReg written d fun s => .next (s.setFlags (flagsOf rel)).advance :=
  ignoresReg_update (fun _ => rfl) fun _ _ => .inl (by cases d <;> rfl)

/-- A jump tests FLAGS, which no register write changes. -/
theorem ignoresReg_jump (test : Flags → Bool) (target : Word) :
    IgnoresReg written d fun s => jumpWhen (test s.flags) target s :=
  ignoresReg_update (fun s => jumpWhen_eq (test s.flags) target s) fun _ _ => .inl (by cases d <;> rfl)

theorem ignoresReg_halt : IgnoresReg written d execHlt :=
  ignoresReg_update (fun _ => rfl) fun _ _ => .inl (by cases d <;> rfl)

/-- An operand read from another register is the same before and after the change. -/
theorem ignoresReg_operand {e : Reg} (hd : d ∉ [e]) (m : Word → State → Result)
    (hm : ∀ x, IgnoresReg written d (m x)) : IgnoresReg written d fun s => m (s.getReg e) s := by
  intro s v
  have hsame : (s.setReg d v).getReg e = s.getReg e := by
    rw [State.getReg_setReg, if_neg fun h => hd (List.mem_singleton.mpr h.symm)]
  simp only [hsame]
  exact hm (s.getReg e) s v

/-- Two operands read from other registers. -/
theorem ignoresReg_operands {e f : Reg} (hd : d ∉ [e, f]) (m : Word → Word → State → Result)
    (hm : ∀ x y, IgnoresReg written d (m x y)) : IgnoresReg written d fun s => m (s.getReg e) (s.getReg f) s :=
  have hde : d ∉ [e] := fun h => hd (List.mem_singleton.mp h ▸ List.mem_cons_self)
  ignoresReg_operand hde (fun x s => m x (s.getReg f) s) fun x =>
    ignoresReg_operand (fun h => hd (List.mem_cons_of_mem e h)) (m x) (hm x)

/-- An arithmetic instruction: its two operands are `A` and `B` (R90, R102). -/
theorem ignoresReg_arithmetic (hd : d ∉ [Reg.a, Reg.b]) (op : Word → Word → Except CoreFault Word) (addr : Word) :
    IgnoresReg written d fun s => storeResult (op s.a s.b) addr s :=
  ignoresReg_operands hd (fun x y => storeResult (op x y) addr) fun x y => ignoresReg_storeResult (op x y) addr

end Meanings

/-! ### Reads -/

/-- The table of R12: an instruction ignores the registers it is not listed to read. -/
theorem exec_ignoresReg {i : Instr} {d : Reg} (hd : d ∉ regsRead i) : IgnoresReg (regsWritten i) d (exec i) := by
  cases i with
  | loadai v => exact ignoresReg_loadImmediate .a v
  | loadbi v => exact ignoresReg_loadImmediate .b v
  | loadri v => exact ignoresReg_loadImmediate .r v
  | loadam a => exact ignoresReg_loadWord .a a
  | loadbm a => exact ignoresReg_loadWord .b a
  | loadrm a => exact ignoresReg_loadWord .r a
  | loadar _ => exact ignoresReg_operand hd (loadWord .a) (ignoresReg_loadWord .a)
  | loadbr _ => exact ignoresReg_operand hd (loadWord .b) (ignoresReg_loadWord .b)
  | stoream a => exact ignoresReg_operand hd (storeWord a) (ignoresReg_storeWord a)
  | storebm a => exact ignoresReg_operand hd (storeWord a) (ignoresReg_storeWord a)
  | storerm a => exact ignoresReg_operand hd (storeWord a) (ignoresReg_storeWord a)
  | storear _ => exact ignoresReg_operands hd (fun x addr => storeWord addr x) fun x addr => ignoresReg_storeWord addr x
  | storebr _ => exact ignoresReg_operands hd (fun x addr => storeWord addr x) fun x addr => ignoresReg_storeWord addr x
  | addint a => exact ignoresReg_arithmetic hd (fun x y => .ok (addInt x y)) a
  | subint a => exact ignoresReg_arithmetic hd (fun x y => .ok (subInt x y)) a
  | multint a => exact ignoresReg_arithmetic hd (fun x y => .ok (mulInt x y)) a
  | divint a => exact ignoresReg_arithmetic hd divInt a
  | modint a => exact ignoresReg_arithmetic hd modInt a
  | addfloat a => exact ignoresReg_arithmetic hd (fun x y => .ok (addFloat x y)) a
  | subfloat a => exact ignoresReg_arithmetic hd (fun x y => .ok (subFloat x y)) a
  | multfloat a => exact ignoresReg_arithmetic hd (fun x y => .ok (mulFloat x y)) a
  | divfloat a => exact ignoresReg_arithmetic hd (fun x y => .ok (divFloat x y)) a
  | cmpint _ => exact ignoresReg_operands hd _ fun x y => ignoresReg_compare (compareInt x y)
  | cmpfloat _ => exact ignoresReg_operands hd _ fun x y => ignoresReg_compare (compareFloat x y)
  | jmp t => exact ignoresReg_jump (fun _ => true) t
  | jeq t => exact ignoresReg_jump (·.eq) t
  | jne t => exact ignoresReg_jump (·.ne) t
  | jlt t => exact ignoresReg_jump (·.lt) t
  | jle t => exact ignoresReg_jump (fun f => f.lt || f.eq) t
  | jgt t => exact ignoresReg_jump (·.gt) t
  | jge t => exact ignoresReg_jump (fun f => f.gt || f.eq) t
  | printint a => exact ignoresReg_printWord .int a
  | printchar a => exact ignoresReg_printWord (fun v => .char (v.extractLsb' 0 8)) a
  | printfloat a => exact ignoresReg_printWord .float a
  | printrint _ => exact ignoresReg_operand hd (printWord .int) (ignoresReg_printWord .int)
  | printrfloat _ => exact ignoresReg_operand hd (printWord .float) (ignoresReg_printWord .float)
  | hlt _ => exact ignoresReg_halt

/-- Settles O15: the writes by the shapes of an instruction, the reads by its table. -/
theorem registersWrittenAndReadAsTabled : Obligations.RegistersWrittenAndReadAsTabled :=
  ⟨fun _ _ _ _ => exec_getReg, fun _ => mnemonic_of_regsWritten, fun _ s _ v hd => exec_ignoresReg hd s v⟩

end Sys2Proof.Machine
end

-- ==== Sys2Proof/Proofs: words of the encoding vectors ====
section
/-! Eleven words are encodings, so they decode to what they encode; the two others have an illegal opcode byte (R56, R57). -/

namespace Sys2Proof

/-- Settles O4: word by word, as the encoding of the instruction, or by its opcode byte. -/
theorem knownWordsDecode : Obligations.KnownWordsDecode :=
  ⟨decode_encode (.loadai 0x12345678#32), decode_encode (.loadam 0x64#32), decode_encode (.loadar 0#32),
    decode_encode (.stoream 0x64#32), decode_encode (.addint 0x64#32), decode_encode (.addfloat 0x64#32),
    decode_encode (.cmpint 0#32), decode_encode (.jmp 0x3C#32), decode_encode (.printint 0x64#32),
    decode_encode (.hlt 0#32), decode_encode (.loadar 0xDEADBEEF#32),
    decode_eq_invalid_iff_range.mpr ⟨rfl, .inl rfl⟩, decode_eq_invalid_iff_range.mpr ⟨rfl, .inr le_rfl⟩⟩

end Sys2Proof
end
